-- ==== Sys2Proof/Word.lean ====
section
/-! DEFINITION. The 32-bit vector every signal of the block carries, the 33-bit transaction word, and the two
type views of a vector (spec rules R6, R7, R35). -/

namespace Sys2Proof

/-- The 32-bit vector `v[31:0]`, bit 0 least significant (R6). -/
abbrev Word := BitVec 32

/-- The transaction word `T[32:0]` (R35). -/
abbrev TransactionWord := BitVec 33

/-- The spec's `Float32`: a 32-bit vector read as a binary32 value, an opaque bit container with equality of
all 32 bits (R43, R66). -/
structure F32 where
  bits : Word
  deriving DecidableEq, Repr

/-- The spec's `Int32`: a 32-bit vector read as an integer (R47). -/
structure I32 where
  bits : Word
  deriving DecidableEq, Repr

end Sys2Proof
end

