-- ==== Sys2Proof/Syntax.lean ====
section
/-! DEFINITION. The instructions, one constructor per row of the opcode table, and the lines of a caller's program
(spec rules R36, R42, R53, R54). -/

namespace Sys2Proof

/-- A transaction `(op, a)`: the operation and its one operand, under the type by which the operation reads it. -/
inductive Instr where
  /-- `F2I`, the source's `FloatToIntBits(value: Float32) -> Int32` (R53). -/
  | f2i (value : F32)
  /-- `I2F`, the source's `IntBitsToFloat(bits: Int32) -> Float32` (R54). -/
  | i2f (bits : I32)
  deriving DecidableEq, Repr

/-- The two operations, without an operand: what the selector and a mnemonic name (R36). -/
inductive Op where
  | f2i
  | i2f
  deriving DecidableEq, Repr

/-- `<src>` of a program line: a 32-bit literal or the name `t<n>` of an earlier line's result (R42). -/
inductive Src where
  | literal (w : Word)
  | name (n : Nat)
  deriving DecidableEq, Repr

/-- One line `t<dst> = <op> <src>` of a caller's program (R42). -/
structure Line where
  dst : Nat
  op  : Op
  src : Src
  deriving DecidableEq, Repr

/-- A program: "a feed-forward netlist of block instances", written as a finite list of lines (R42). -/
abbrev Netlist := List Line

end Sys2Proof
end

