-- ==== Sys2Proof/WellFormed.lean ====
section
/-! DEFINITION. What is well-formed. Every instruction is: "there is no reserved value, no precondition and no input
the block rejects" (R19, R40, R49). A caller's netlist is checked for the two conditions of R42: a name is bound
once, and used only by later lines; this refuses the feedback loop of R91 (D9, log entry 9). -/

namespace Sys2Proof

/-- Every instruction is well-formed, whatever its operand (R19, R49). -/
def Instr.wellFormed : Instr → Bool
  | .f2i _ => true
  | .i2f _ => true

/-- A source may be used when it is a literal or a name already bound (R42). -/
def Src.boundIn (bound : List Nat) : Src → Bool
  | .literal _ => true
  | .name n    => bound.contains n

/-- The lines are well-formed after lines that bound the names `bound`: each destination is fresh, each source is
bound by an earlier line (R42, R91). -/
def Netlist.wellFormedFrom : List Nat → Netlist → Bool
  | _, [] => true
  | bound, l :: ls => !bound.contains l.dst && l.src.boundIn bound && Netlist.wellFormedFrom (l.dst :: bound) ls

/-- A whole program is well-formed: nothing is bound before its first line. -/
def Netlist.wellFormed (p : Netlist) : Bool := Netlist.wellFormedFrom [] p

end Sys2Proof
end

