-- ==== Sys2Proof/Decode.lean ====
section
/-! DEFINITION. The transaction word `T = {op, a}`: its fields, the selector, the opcode table, the decoder and the
encoder (spec rules R35 to R41). Decoding is total and has no "invalid" verdict, so there is no rejection to name:
"Every one of the 2^33 transaction words decodes to exactly one operation" (R37); a refusal is forbidden (R40). -/

namespace Sys2Proof

/-- The field `op = T[32]` (R35). -/
def selectorField (t : TransactionWord) : BitVec 1 := t.extractLsb' 32 1

/-- The field `a = T[31:0]`, used as it stands (R35, R39). -/
def operandField (t : TransactionWord) : Word := t.extractLsb' 0 32

/-- The operation a selector value names: `0` is `F2I`, `1` is `I2F` (R36). -/
def Op.ofSelector (b : BitVec 1) : Op := if b = 0#1 then .f2i else .i2f

/-- The selector value of an operation (R36). -/
def Op.selector : Op → BitVec 1
  | .f2i => 0#1
  | .i2f => 1#1

/-- The transaction that presents the vector `a` to an operation: Float32 operand for `F2I`, Int32 for `I2F` (R48). -/
def Op.apply : Op → Word → Instr
  | .f2i, a => .f2i ⟨a⟩
  | .i2f, a => .i2f ⟨a⟩

/-- The operation of a transaction. -/
def Instr.op : Instr → Op
  | .f2i _ => .f2i
  | .i2f _ => .i2f

/-- The 32 operand bits of a transaction, without their type (R48: "The wires carry no type"). -/
def Instr.operand : Instr → Word
  | .f2i value => value.bits
  | .i2f bits  => bits.bits

/-- `decode(T)`: the operation by `T[32]`, with operand `T[31:0]` in both cases (R37). -/
def decode (t : TransactionWord) : Instr := (Op.ofSelector (selectorField t)).apply (operandField t)

/-- A row of the opcode map: a word `T` selects it when `T AND mask = pattern` (30_encoding.md section 3). -/
structure OpcodeRow where
  op      : Op
  mask    : TransactionWord
  pattern : TransactionWord
  deriving DecidableEq, Repr

/-- The complete opcode map (30_encoding.md section 3). -/
def opcodeTable : List OpcodeRow :=
  [⟨.f2i, 0x100000000#33, 0x000000000#33⟩,
   ⟨.i2f, 0x100000000#33, 0x100000000#33⟩]

/-- The word selects the row. -/
def OpcodeRow.selectedBy (r : OpcodeRow) (t : TransactionWord) : Bool := t &&& r.mask == r.pattern

/-- The transaction word of an instruction: `{op, a}` (R35). -/
def encode (i : Instr) : TransactionWord := i.op.selector ++ i.operand

/-- The transaction word a table row's number `w` of `nbits` bits stands for. The word has 33 bits; a bit of the
number above bit 32 has no wire to stand on (R17, R35) and is dropped; DESIGN CHOICE, log entry 4. -/
def tableWord (nbits w : Nat) : TransactionWord := BitVec.ofNat 33 (w % 2 ^ nbits)

/-- What the decoder reads from a word numbered as the opcode table numbers it; never `none` (R37). -/
def decodeTableWord (nbits w : Nat) : Option Instr := some (decode (tableWord nbits w))

end Sys2Proof
end

