-- ==== Sys2Proof/Machine/State.lean ====
section
/-! DEFINITION. The machine's state. The block itself has none: `Block` is the one-point type of R9. Beside it,
`State` records what stands on the three signals of R17 at one instant, because the host's `step` takes nothing else
(log entry 1). There is no register, program counter, flag, control register, memory, saved register, mode or pending
interrupt to hold (R10 to R16, R22, R77, R79, R82). -/

namespace Sys2Proof.Machine

/-- The block's own state: no field, one value (R9: "a model's state record for the block has no field"). -/
structure Block where
  deriving DecidableEq, Repr

/-- The signals at one instant, and the block's (empty) state. -/
structure State where
  /-- Input: the operation selector (R17). -/
  op    : BitVec 1
  /-- Input: the operand bit pattern (R17). -/
  a     : Word
  /-- Output: the result bit pattern (R17). -/
  y     : Word
  /-- The block's state, the one-point type (R9). -/
  block : Block
  deriving DecidableEq, Repr

/-- The causes of a fault: none. "The complete table of exception causes is empty" (R73), and a model "has no fault,
no stuck state and no refusal for this block" (R62); log entry 6. -/
inductive Fault where
  deriving DecidableEq, Repr

/-- The reasons of a refusal. -/
inductive Refusal where
  /-- Raised by a dispatch arm that has no meaning yet, and by none in this model: every row has its meaning. Safe. -/
  | notModelled (mnemonic : String)
  deriving DecidableEq, Repr

/-- The signals at reset. The spec gives the inputs no value: "whatever the caller drives" (R21). The model names
`op = 0` and `a = 0`; `y` is then `a`'s value, as R21 says. DESIGN CHOICE, log entry 2. -/
def State.reset : State := ⟨0#1, 0#32, 0#32, ⟨⟩⟩

end Sys2Proof.Machine
end

