-- ==== Sys2Proof/Machine/Ops.lean ====
section
/-! DEFINITION. The shared operations: the 32 wires from operand to result, the two typed bitcasts over them, and the
three ways the signals change hands. There is no register or memory access (R10, R22), and no taking of an exception or
return from one to share: "nothing is saved, no mode, mask or stack changes, and control goes nowhere" (R79, R80). -/

namespace Sys2Proof.Machine

/-- `y[i] <- b` for one wire `i`, the other wires as they stand. -/
def driveWire (y : Word) (i : Nat) (b : Bool) : Word :=
  if b then y ||| BitVec.twoPow 32 i else y &&& ~~~ BitVec.twoPow 32 i

/-- `for every i in 0..n-1: y[i] <- a[i]` (the pseudocode of R53 and R54), wires not yet driven reading 0. -/
def driveWires (a : Word) : Nat → Word
  | 0     => 0#32
  | n + 1 => driveWire (driveWires a n) n (a.getLsbD n)

/-- The datapath of both operations: all 32 wires (R53, R54, R59: "the 32 wires go straight through"). -/
def bitcast (a : Word) : Word := driveWires a 32

/-- `FloatToIntBits`: `Int32(a)` for a Float32 `a` (R53). -/
def floatToIntBits (value : F32) : I32 := ⟨bitcast value.bits⟩

/-- `IntBitsToFloat`: `Float32(a)` for an Int32 `a` (R54). -/
def intBitsToFloat (bits : I32) : F32 := ⟨bitcast bits.bits⟩

/-- The block drives its output; it "never drives `a` or `op`" (R18). -/
def State.driveY (w : Word) (s : State) : State := { s with y := w }

/-- The transaction word `{op, a}` that stands on the inputs (R35). -/
def State.presentedWord (s : State) : TransactionWord := s.op ++ s.a

/-- The caller drives the inputs with a transaction word's fields (R17, R35). -/
def State.presentWord (t : TransactionWord) (s : State) : State :=
  { s with op := selectorField t, a := operandField t }

/-- The caller presents a transaction on the inputs (R5, R17). -/
def State.present (i : Instr) (s : State) : State := s.presentWord (encode i)

end Sys2Proof.Machine
end

