-- ==== Sys2Proof/Machine/Bitcast.lean ====
section
/-! DEFINITION. The bitcast family, the only one (40_bitcast.md sections 1 and 2). -/

namespace Sys2Proof.Machine

/-- `F2I`: `y <- Int32(a)`; no state and no flag is written, no exception raised, for any operand (R53). -/
def execF2i (value : F32) (s : State) : Host.Outcome State Fault Refusal :=
  .next (s.driveY (floatToIntBits value).bits)

/-- `I2F`: `y <- Float32(a)`; no state and no flag is written, no exception raised, for any operand (R54). -/
def execI2f (bits : I32) (s : State) : Host.Outcome State Fault Refusal :=
  .next (s.driveY (intBitsToFloat bits).bits)

end Sys2Proof.Machine
end

