-- ==== Sys2Proof/Machine/Dispatch.lean ====
section
/-! DEFINITION. One arm per row of the opcode table. -/

namespace Sys2Proof.Machine

def exec (i : Instr) (s : State) : Host.Outcome State Fault Refusal :=
  match i with
  | .f2i value => Sys2Proof.Machine.execF2i value s
  | .i2f bits => Sys2Proof.Machine.execI2f bits s

end Sys2Proof.Machine
end

