-- ==== Sys2Proof/Machine/Step.lean ====
section
/-! DEFINITION. One step: "evaluate one transaction" (R5). Nothing is fetched (R11, R34): the transaction is the word
that stands on the inputs (R35), which the caller holds (R18, R92). How a program comes to run: log entry 3. -/

namespace Sys2Proof.Machine

/-- Evaluate the transaction on the inputs. -/
def step (s : State) : Host.Outcome State Fault Refusal := exec (decode s.presentedWord) s

/-- The state in which the next step evaluates the table word `w`: the caller presents its 33 bits on the inputs. -/
def State.withFetchWord (s : State) (nbits w : Nat) : State := s.presentWord (tableWord nbits w)

end Sys2Proof.Machine
end

