-- ==== Sys2Proof/Config.lean ====
section
/-! DEFINITION. What the spec leaves to an implementation (R4). The only open parameter the model represents is
the number of instances; the propagation delay `T_PD` is a time "the model does not represent" (R4, R93). Width,
float format, signedness, layout and selector are fixed by the spec and are no parameters (D2, D4, D5, D16). -/

namespace Sys2Proof

/-- `N_INST`: how many independent copies of the block there are, any natural number (R4, D11). It has no body, so
nothing can rest on its value; log entry 7. -/
opaque Config.nInst : Nat

end Sys2Proof
end

