-- ==== Sys2Proof/Machine/Flags.lean ====
section
/-! DEFINITION. The flags: none (R12). "Neither operation sets, clears or reads a status flag", and no IEEE-754
exception is signalled for any operand, signalling NaNs included (R65). -/

namespace Sys2Proof.Machine

/-- The status flags of the machine: the type has no value (R12). -/
inductive Flag where
  deriving DecidableEq, Repr

/-- The flags a transaction writes: none, for any operand (R12, R53, R54, R65). -/
def flagsWritten : Instr → List Flag
  | .f2i _ => []
  | .i2f _ => []

end Sys2Proof.Machine
end

