-- ==== Sys2Proof/Machine/Caller.lean ====
section
/-! DEFINITION. The environment's side: a caller that presents transactions and reads `y` (R8 item 8, R17), on any of
the independent instances of the block (R31, R85). Everything runs through `step`. -/

namespace Sys2Proof.Machine

/-- The caller presents one transaction to an instance and lets it evaluate (R5). -/
def transact (i : Instr) (s : State) : Host.Outcome State Fault Refusal := step (s.present i)

/-- The instances of the block: they share nothing (R31). The list's length is the number of instances. -/
abbrev Bank := List State

/-- `N_INST` instances at reset (R4, D11). -/
def Bank.reset : Bank := List.replicate Config.nInst State.reset

/-- One transaction on instance `k`; the answer is the bank and the `y` read. `none` where there is no instance `k`. -/
def Bank.transactOn (k : Nat) (i : Instr) (b : Bank) : Option (Bank × Word) :=
  match b[k]? with
  | none => none
  | some s =>
    match transact i s with
    | .next s'   => some (b.set k s', s'.y)
    | .fault _   => none
    | .refused _ => none

/-- A schedule of transactions, each on an instance of the caller's choice, in the order given; the answer lists each
transaction's `y` in that order. Callers may time-share one instance or use one each (R85). -/
def Bank.serve : List (Nat × Instr) → Bank → Option (Bank × List Word)
  | [], b => some (b, [])
  | (k, i) :: rest, b =>
    match Bank.transactOn k i b with
    | none => none
    | some (b', y) =>
      match Bank.serve rest b' with
      | none => none
      | some (b'', ys) => some (b'', y :: ys)

end Sys2Proof.Machine
end

