-- ==== Sys2Proof/Machine/Netlist.lean ====
section
/-! DEFINITION. A caller's program: a feed-forward netlist of block instances (R42). The names live in the caller and
never in the block (R20); each line is one transaction whose `y` is bound to the line's name. Lines are evaluated here in
list order; R42 allows any order that respects the data dependencies (log entry 9). -/

namespace Sys2Proof.Machine

/-- The values bound to names, newest first: caller-side variables (R20). -/
abbrev Bindings := List (Nat × Word)

/-- The 32 bits a source puts on the wires of `a`; `none` for a name not bound. -/
def srcBits (env : Bindings) : Src → Option Word
  | .literal w => some w
  | .name n    => env.lookup n

/-- Evaluate the lines, from an instance in state `s` and bindings `env`: a line presents its transaction, the block
evaluates it, and the name is bound to the `y` read (R42). `none` at a line whose source name is not bound. -/
def Netlist.run : Netlist → State → Bindings → Option (State × Bindings)
  | [], s, env => some (s, env)
  | l :: ls, s, env =>
    match srcBits env l.src with
    | none => none
    | some a =>
      match transact (l.op.apply a) s with
      | .next s'   => Netlist.run ls s' ((l.dst, s'.y) :: env)
      | .fault _   => none
      | .refused _ => none

/-- The chain of wires behind the name `n` begins at the literal `w`. It speaks of the lines of the netlist alone: not
of their order, and not of any operation. -/
inductive StartsAt (p : Netlist) : Nat → Word → Prop where
  | literal {l : Line} {w : Word} (mem : l ∈ p) (src : l.src = .literal w) : StartsAt p l.dst w
  | wire {l : Line} {n : Nat} {w : Word} (mem : l ∈ p) (src : l.src = .name n) (chain : StartsAt p n w) :
      StartsAt p l.dst w

end Sys2Proof.Machine
end

