-- ==== Sys2Proof/Machine/Operands.lean ====
section
/-! DEFINITION. How the 32 bits of the one operand form, and of the result, are read: integer readings (R6, R47), byte
lanes (R23) and the fields, classes and numeric value of binary32 (R43, R45, R46). No operation uses any of it: it says
what the bits mean to the caller (R48, R64). Field places, classes, values and two's complement are marked in the spec
as general knowledge (G1 to G5); log entry 5. -/

namespace Sys2Proof

/-- `uint(v)`, the unsigned reading (R6). -/
def uint (v : Word) : Nat := v.toNat

/-- `sint(v) = uint(v) - 2^32 * v[31]`, the two's complement reading, an Int32's value (R6, R47). -/
def sint (v : Word) : Int := (uint v : Int) - 2 ^ 32 * (v.getLsbD 31).toNat

/-- `bv32(n)`: the vector whose unsigned reading is `n mod 2^32` (R6). -/
def bv32 (n : Int) : Word := BitVec.ofNat 32 (n % 2 ^ 32).toNat

/-- Byte lane `k`, bits `8k+7 : 8k`, lane 0 least significant (R23). -/
def lane (k : Nat) (v : Word) : BitVec 8 := v.extractLsb' (8 * k) 8

/-- `S = v[31]` (R43). -/
def F32.sign (x : F32) : BitVec 1 := x.bits.extractLsb' 31 1

/-- `E = v[30:23]`, the biased exponent (R43). -/
def F32.exponent (x : F32) : BitVec 8 := x.bits.extractLsb' 23 8

/-- `F = v[22:0]`, the fraction (R43). -/
def F32.fraction (x : F32) : BitVec 23 := x.bits.extractLsb' 0 23

/-- The pattern with given fields, `{S, E, F}` (R43). -/
def F32.ofFields (s : BitVec 1) (e : BitVec 8) (f : BitVec 23) : F32 := ⟨s ++ (e ++ f)⟩

/-- The classes of R45. -/
inductive FloatClass where
  | zero
  | denormal
  | normal
  | infinity
  | nan
  deriving DecidableEq, Repr

/-- The class of a pattern, by `E` and `F` (R45). -/
def F32.classify (x : F32) : FloatClass :=
  if x.exponent = 0#8 then
    if x.fraction = 0#23 then .zero else .denormal
  else if x.exponent = 255#8 then
    if x.fraction = 0#23 then .infinity else .nan
  else .normal

/-- A quiet NaN has `F[22] = 1` (R45, D12). -/
def F32.isQuietNaN (x : F32) : Bool := x.classify == .nan && x.fraction.getLsbD 22

/-- A signalling NaN has `F[22] = 0` (R45, D12). -/
def F32.isSignallingNaN (x : F32) : Bool := x.classify == .nan && !x.fraction.getLsbD 22

/-- The numeric value of R46. A finite value is a sign and a magnitude counted in units of `2^-149`, the smallest
denormal, of which every finite binary32 value is a whole multiple. -/
inductive FloatValue where
  | finite (negative : Bool) (units : Nat)
  | infinity (negative : Bool)
  | nan
  deriving DecidableEq, Repr

/-- The sign bit set. -/
def F32.negative (x : F32) : Bool := x.sign == 1#1

/-- The magnitude of a finite pattern in units of `2^-149`: `F` where `E = 0`, else `(2^23 + F) * 2^(E-1)` (R46). -/
def F32.units (x : F32) : Nat :=
  if x.exponent = 0#8 then x.fraction.toNat else (2 ^ 23 + x.fraction.toNat) * 2 ^ (x.exponent.toNat - 1)

/-- The numeric value of a pattern (R46). -/
def F32.value (x : F32) : FloatValue :=
  match x.classify with
  | .zero     => .finite x.negative 0
  | .denormal => .finite x.negative x.units
  | .normal   => .finite x.negative x.units
  | .infinity => .infinity x.negative
  | .nan      => .nan

/-- A finite value as a signed count of `2^-149`; an infinity and a NaN have none. -/
def FloatValue.signedUnits : FloatValue → Option Int
  | .finite negative units => some (if negative then -(units : Int) else units)
  | .infinity _            => none
  | .nan                   => none

/-- The number R46's own formula gives a finite pattern. -/
def F32.formula (x : F32) : Option Rat :=
  match x.classify with
  | .zero     => some 0
  | .denormal => some ((-1) ^ x.sign.toNat * ((x.fraction.toNat : Rat) / 2 ^ 23) * (2 : Rat) ^ (-126 : Int))
  | .normal   =>
      some ((-1) ^ x.sign.toNat * (1 + (x.fraction.toNat : Rat) / 2 ^ 23) * (2 : Rat) ^ ((x.exponent.toNat : Int) - 127))
  | .infinity => none
  | .nan      => none

/-- IEEE-754 numeric comparison (R46): the two zeros compare equal, a NaN is unequal to everything. It is NOT the
equality of any law (R66), and no operation uses it. -/
def F32.numericEq (x y : F32) : Bool :=
  match x.value, y.value with
  | .finite n u,  .finite m v  => FloatValue.signedUnits (.finite n u) == FloatValue.signedUnits (.finite m v)
  | .infinity n,  .infinity m  => n == m
  | .finite _ _,  .infinity _  => false
  | .infinity _,  .finite _ _  => false
  | .nan,         _            => false
  | .finite _ _,  .nan         => false
  | .infinity _,  .nan         => false

end Sys2Proof
end

