-- ==== Sys2Proof/Machine/Text.lean ====
section
/-! DEFINITION. The written form of a program line, `<dst> = F2I <src>`, and of a transaction word (R6, R42): a writer
and a reader over characters. An annotation in brackets and anything after a semicolon is a comment. DESIGN CHOICE where
R42 shows forms only by example (eight upper-case digits, decimal names without leading zeros), log entry 10. -/

namespace Sys2Proof.Text

/-- The mnemonics (R36, D10). -/
def mnemonic : Op → List Char
  | .f2i => ['F', '2', 'I']
  | .i2f => ['I', '2', 'F']

/-- One upper-case hexadecimal digit. -/
def hexDigit (d : BitVec 4) : Char := Char.ofNat (if d.toNat < 10 then 48 + d.toNat else 55 + d.toNat)

/-- The value of an upper-case hexadecimal digit. -/
def hexValue (c : Char) : Option (BitVec 4) :=
  if 48 ≤ c.toNat ∧ c.toNat ≤ 57 then some (BitVec.ofNat 4 (c.toNat - 48))
  else if 65 ≤ c.toNat ∧ c.toNat ≤ 70 then some (BitVec.ofNat 4 (c.toNat - 55))
  else none

/-- The eight digits of a vector, most significant first. -/
def hexDigits (w : Word) : List Char :=
  [7, 6, 5, 4, 3, 2, 1, 0].map fun k => hexDigit (w.extractLsb' (4 * k) 4)

/-- The vector that digits, most significant first, are appended to. -/
def readHexInto : Word → List Char → Option Word
  | w, [] => some w
  | w, c :: cs =>
    match hexValue c with
    | some d => readHexInto (w <<< 4 ||| d.setWidth 32) cs
    | none   => none

/-- A name `t<n>` (R42). -/
def name (n : Nat) : List Char := 't' :: Nat.toDigits 10 n

/-- A source: a 32-bit hexadecimal literal or a name (R42). -/
def src : Src → List Char
  | .literal w => '0' :: 'x' :: hexDigits w
  | .name n    => name n

/-- A line: `<dst> = F2I <src>` (R42). -/
def line (l : Line) : List Char := name l.dst ++ [' ', '=', ' '] ++ mnemonic l.op ++ [' '] ++ src l.src

/-- A transaction word, top bit first and an underscore: `0x1_4640E685` (R6). -/
def word (t : TransactionWord) : List Char :=
  '0' :: 'x' :: (if t.getLsbD 32 then '1' else '0') :: '_' :: hexDigits (t.extractLsb' 0 32)

/-- The decimal number some characters write: digits only, at least one, no leading zero but in `0` itself. -/
def readNumber (cs : List Char) : Option Nat :=
  if cs ≠ [] ∧ cs.all Char.isDigit ∧ Nat.toDigits 10 (Nat.ofDigitChars 10 cs 0) = cs then some (Nat.ofDigitChars 10 cs 0)
  else none

/-- Read a name. -/
def readName : List Char → Option Nat
  | []      => none
  | c :: cs => if c = 't' then readNumber cs else none

/-- Read a source: after `0x`, exactly eight digits; else a name. -/
def readSrc (cs : List Char) : Option Src :=
  match cs with
  | '0' :: 'x' :: ds => if ds.length = 8 then (readHexInto 0#32 ds).map Src.literal else none
  | _ => (readName cs).map Src.name

/-- Read a mnemonic. -/
def readOp (cs : List Char) : Option Op :=
  if cs = mnemonic .f2i then some .f2i else if cs = mnemonic .i2f then some .i2f else none

/-- The words between spaces; `current` is the word being read, last character first. -/
def words (current : List Char) : List Char → List (List Char)
  | [] => if current = [] then [] else [current.reverse]
  | c :: cs =>
    if c = ' ' then
      if current = [] then words [] cs else current.reverse :: words [] cs
    else words (c :: current) cs

/-- The part of a line before its first comment. -/
def beforeComment (cs : List Char) : List Char := cs.takeWhile fun c => c != '(' && c != ';'

/-- Read a line. -/
def readLine (cs : List Char) : Option Line :=
  match words [] (beforeComment cs) with
  | [d, e, m, s] =>
    if e = ['='] then
      match readName d, readOp m, readSrc s with
      | some dst, some op, some source => some ⟨dst, op, source⟩
      | _, _, _ => none
    else none
  | _ => none

end Sys2Proof.Text
end

