-- ==== Sys2Proof/Machine/Unknown.lean ====
section
/-! DEFINITION. The one extension R19 allows a simulation in which a wire may be unknown: "the only consistent
extension is bitwise, `y[i]` unknown exactly when `a[i]` is unknown, and nothing else may be assumed". The machine's own
wires are two-valued (R19, D8); nothing of the machine uses this file. DESIGN CHOICE to give it, log entry 8. -/

namespace Sys2Proof.Machine

/-- A wire of such a simulation; `unknown` stands for the `X` and for the `Z` of R19. -/
inductive Wire where
  | low
  | high
  | unknown
  deriving DecidableEq, Repr

/-- 32 such wires, wire `i` at index `i`. -/
abbrev Wires := Vector Wire 32

/-- A known wire. -/
def Wire.ofBool : Bool → Wire
  | false => .low
  | true  => .high

/-- 32 known wires. -/
def Wires.ofWord (w : Word) : Wires := Vector.ofFn fun i => Wire.ofBool (w.getLsbD i)

/-- `y[i] <- a[i]` for every `i`, the datapath of R53 and R54 on such wires. -/
def bitcastWires (a : Wires) : Wires := Vector.ofFn fun i => a[i]

end Sys2Proof.Machine
end

