-- ==== Sys2Proof/Safety.lean ====
section
/-! DEFINITION. What counts as a safe run, in the terms claims use: every transaction completes (R62, R73), and the
output then shows the operand's bits (R55, R88). -/

namespace Sys2Proof.Machine

/-- The outcome is a next state: no fault, no refusal (R62). -/
def Completes : Host.Outcome State Fault Refusal → Bool
  | .next _    => true
  | .fault _   => false
  | .refused _ => false

/-- The output shows what stands on the operand input: `y = a` (R55, R88). False of a state whose inputs the caller
has just changed. -/
abbrev State.Settled (s : State) : Prop := s.y = s.a

end Sys2Proof.Machine
end

