-- ==== Sys2Proof/Certificates/Slice0/Obligations.lean ====
section
/-! DEFINITION. The statements for the provers, in the order of the spec's files. -/

section
open Sys2Proof Sys2Proof.Machine

/-! ### State, signals and the step (00_scope.md, 10_state.md, 20_memory.md, 60_exceptions.md, 70_reset_and_hazards.md) -/

/-- 10_state.md section 1 (R9) and 20_memory.md section 2 (R30): the block's state space is the one-point type, so what was
evaluated before, on this instance or another, does not show: after any schedule, a transaction on any instance gives the
`y` it gives on any instance of the first bank. Transactions at the same time on other instances are represented by their
interleavings, here as part of the schedule: the MODEL's choice, log entry 7. -/
def Obligations.EarlierTransactionsLeaveNoTrace : Prop :=
  (∀ b c : Block, b = c) ∧
  ∀ (sched : List (Nat × Instr)) (b b' : Bank) (ys : List Word) (i : Instr) (k m : Nat),
    Bank.serve sched b = some (b', ys) → k < b.length → m < b.length →
    ∃ (c c' : Bank) (y : Word), Bank.transactOn k i b' = some (c', y) ∧ Bank.transactOn m i b = some (c, y)

/-- 10_state.md sections 1 and 2 (R16, R17): nothing beside the three signals distinguishes two states. -/
def Obligations.SignalsAreTheWholeState : Prop :=
  ∀ s t : State, s.op = t.op → s.a = t.a → s.y = t.y → s = t

/-- R18: neither operation, and no step, drives an input or anything else but `y`. The frame of both instructions. -/
def Obligations.OnlyTheOutputIsDriven : Prop :=
  (∀ (i : Instr) (s s' : State), exec i s = .next s' → s'.op = s.op ∧ s'.a = s.a ∧ s'.block = s.block) ∧
  ∀ s s' : State, step s = .next s' → s'.op = s.op ∧ s'.a = s.a ∧ s'.block = s.block

/-- 10_state.md section 2 (R19): every value of `op` and of `a`, in every combination, is a legal input. And the one
extension R19 allows for wires that may be unknown (that the model gives it is its choice, log entry 8): `y[i]` is unknown
exactly when `a[i]` is, and known wires are the machine's. -/
def Obligations.EveryInputCombinationIsLegal : Prop :=
  (∀ (o : BitVec 1) (v : Word) (s : State), ∃ s',
    step { s with op := o, a := v } = .next s' ∧ s'.op = o ∧ s'.a = v ∧ s'.y = v) ∧
  (∀ (w : Wires) (i : Fin 32), (bitcastWires w)[i] = Wire.unknown ↔ w[i] = Wire.unknown) ∧
  ∀ v : Word, bitcastWires (Wires.ofWord v) = Wires.ofWord (bitcast v)

/-- 10_state.md section 4 (R21): what reset leaves. `y` shows `a`, as R21 says; that both inputs are 0 is the MODEL's
choice (log entry 2). The reset state is settled. -/
def Obligations.ResetStateShowsItsOperand : Prop :=
  State.reset.Settled ∧ State.reset.op = 0#1 ∧ State.reset.a = 0#32

/-- R88: "`y = a` whenever `a` is driven": every step establishes, and so keeps, the invariant that the output shows the
operand input, from states that no run reaches too. It needs no premise on the state before. -/
def Obligations.EveryStepSettlesTheOutput : Prop :=
  ∀ s : State, (∃ s', step s = .next s') ∧ ∀ s', step s = .next s' → s'.Settled

/-- 20_memory.md section 1 (R23): byte lane `k` of the result is byte lane `k` of the operand; lane 0 holds `F[7:0]`, lane
3 the sign and `E[7:1]`. -/
def Obligations.ByteLanesPassStraightThrough : Prop :=
  ∀ s : State, ∃ s', step s = .next s' ∧
    (∀ k < 4, lane k s'.y = lane k s.a) ∧
    s'.y = lane 3 s.a ++ (lane 2 s.a ++ (lane 1 s.a ++ lane 0 s.a)) ∧
    lane 0 s'.y = (F32.mk s.a).fraction.extractLsb' 0 8 ∧
    lane 3 s'.y = (F32.mk s.a).sign ++ (F32.mk s.a).exponent.extractLsb' 1 7

/-- R27: evaluating a transaction has no side effect; evaluating the same transaction again, however often, gives the same
`y` and the same state; and evaluating a transaction and discarding `y` is the same as not evaluating it. -/
def Obligations.EvaluationIsIdempotentAndDiscardable : Prop :=
  (∀ (k : Nat) (s : State), ∃ s', step s = .next s' ∧ Sys2Proof.core.run (k + 1) s = .next s' ∧
    s'.op = s.op ∧ s'.a = s.a ∧ s'.block = s.block) ∧
  ∀ (i j : Instr) (s s' : State), transact i s = .next s' → transact j s' = transact j s

/-- 20_memory.md section 2 (R30): each transaction's `y` depends on that transaction alone: any schedule, on any bank with the instances it names,
is served whole and answers each transaction the same; two orders of one set of transactions, on any banks and
instances, answer each transaction the same. Transactions that overlap on different instances are represented by their
interleavings: the MODEL's choice, log entry 7. -/
def Obligations.InterleavingsAnswerAlike : Prop :=
  ∃ answer : Instr → Word,
    (∀ (sched : List (Nat × Instr)) (b : Bank), (∀ e ∈ sched, e.1 < b.length) →
      ∃ b', Bank.serve sched b = some (b', sched.map fun e => answer e.2)) ∧
    ∀ (sched sched' : List (Nat × Instr)) (b b' c c' : Bank) (ys ys' : List Word),
      (sched.map Prod.snd).Perm (sched'.map Prod.snd) →
      Bank.serve sched b = some (c, ys) → Bank.serve sched' b' = some (c', ys') →
      ((sched.map Prod.snd).zip ys).Perm ((sched'.map Prod.snd).zip ys')

/-- 20_memory.md section 2 (R31): a transaction on one instance leaves every other instance as it was, and transactions on
two instances commute, with the same answers and the same bank; no schedule changes how many instances there are, which
is `N_INST` from reset on. -/
def Obligations.InstancesShareNothing : Prop :=
  (∀ (k j : Nat) (i : Instr) (b d : Bank) (y : Word), Bank.transactOn k i b = some (d, y) → j ≠ k →
    d.length = b.length ∧ d[j]? = b[j]?) ∧
  (∀ (k j : Nat) (i i' : Instr) (b : Bank), k ≠ j → k < b.length → j < b.length →
    ∃ (c : Bank) (y y' : Word),
      Bank.serve [(k, i), (j, i')] b = some (c, [y, y']) ∧ Bank.serve [(j, i'), (k, i)] b = some (c, [y', y])) ∧
  ∀ (sched : List (Nat × Instr)) (d : Bank) (ys : List Word),
    Bank.serve sched Bank.reset = some (d, ys) → d.length = Config.nInst

/-- R62, R73, R76: every transaction completes: no fault exists to raise, and no instruction, no step and no run of any
length answers with a fault or a refusal. -/
def Obligations.EveryTransactionCompletes : Prop :=
  (∀ _ : Fault, False) ∧ (∀ (i : Instr) (s : State), ∃ s', exec i s = .next s') ∧
  (∀ (i : Instr) (s : State), ∃ s', transact i s = .next s') ∧ (∀ s : State, ∃ s', step s = .next s') ∧
  ∀ (k : Nat) (s : State), Completes (Sys2Proof.core.run k s) = true

/-- R65: a transaction signals nothing and writes no flag, for any operand: it answers a next state that is the state
before with `y` alone changed, to the operand's own 32 bits, and a state is its three signals and nothing else, so there
is no place for a flag. A signalling NaN (by the quiet bit of D12) is not made a quiet one. -/
def Obligations.NothingIsSignalled : Prop :=
  (∀ (i : Instr) (s : State), exec i s = .next { s with y := i.operand }) ∧
  (∀ (i : Instr) (s : State), transact i s = .next { s.present i with y := i.operand }) ∧
  (∀ s t : State, s.op = t.op → s.a = t.a → s.y = t.y → s = t) ∧
  ∀ (o : Op) (v : Word) (s : State), ∃ s', transact (o.apply v) s = .next s' ∧
    (F32.mk s'.y).isSignallingNaN = (F32.mk v).isSignallingNaN ∧ (F32.mk s'.y).isQuietNaN = (F32.mk v).isQuietNaN

/-- 70_reset_and_hazards.md section 3 (R91): a netlist that fed `y` back to `a` would hold any value: every vector is a
fixed point of the loop, under both selectors; and a line that names its own result is refused in every netlist. -/
def Obligations.FeedbackHoldsAnyValueAndIsRefused : Prop :=
  (∀ (o : BitVec 1) (v : Word) (s : State),
    step { s with op := o, a := v, y := v } = .next { s with op := o, a := v, y := v }) ∧
  ∀ (p : Netlist) (n : Nat) (o : Op), ⟨n, o, .name n⟩ ∈ p → Netlist.wellFormed p = false

/-! ### Encodings (30_encoding.md) -/

/-- R37: decoding is total: bit 32 chooses the operation, the low 32 bits are the operand, and exactly one row of the
opcode map is selected, the decoded operation's. -/
def Obligations.EveryWordSelectsExactlyOneRow : Prop :=
  ∀ t : TransactionWord,
    (t.getLsbD 32 = false → decode t = .f2i ⟨t.extractLsb' 0 32⟩) ∧
    (t.getLsbD 32 = true → decode t = .i2f ⟨t.extractLsb' 0 32⟩) ∧
    (opcodeTable.filter fun r => r.selectedBy t).map OpcodeRow.op = [(decode t).op]

/-- 30_encoding.md sections 1 to 3: decoding and encoding are inverse to each other, for every instruction with every
operand and for every one of the 2^33 words, and an encoded word has the selector at bit 32 and the operand below. -/
def Obligations.DecodeAndEncodeAreInverse : Prop :=
  (∀ i : Instr, i.wellFormed = true ∧ decode (encode i) = i) ∧ (∀ t : TransactionWord, encode (decode t) = t) ∧
  (∀ (value : F32) (j : Nat), (encode (.f2i value)).getLsbD j = (decide (j < 32) && value.bits.getLsbD j)) ∧
  ∀ (bits : I32) (j : Nat), (encode (.i2f bits)).getLsbD j = (decide (j = 32) || decide (j < 32) && bits.bits.getLsbD j)

/-- 30_encoding.md sections 1 and 3, 95_test_vectors.md: words written out bit by bit. -/
def Obligations.WrittenOutWordsDecode : Prop :=
  decode 0b001000110010000001110011010000101#33 = .f2i ⟨0x4640E685#32⟩ ∧
  decode 0b101000110010000001110011010000101#33 = .i2f ⟨0x4640E685#32⟩ ∧
  decode 0b011111111111111111111111111111111#33 = .f2i ⟨0xFFFFFFFF#32⟩ ∧
  decode 0b100000000000000000000000000000000#33 = .i2f ⟨0x00000000#32⟩

/-- 00_scope.md section 5 and 30_encoding.md section 1: a step evaluates the transaction that stands on the inputs, and
presenting a transaction puts its own word there. That presenting leaves the old `y` standing until the step is the
MODEL's choice (log entries 1 and 3): the hardware's `y` is combinational and follows `a`. -/
def Obligations.StepRunsThePresentedTransaction : Prop :=
  (∀ (s : State) (i : Instr), decode (s.op ++ s.a) = i → step s = exec i s) ∧
  ∀ (s : State) (i : Instr), (s.present i).op ++ (s.present i).a = encode i ∧ (s.present i).y = s.y ∧
    step (s.present i) = exec i (s.present i)

/-- The MODEL's convention for the host's table words (log entries 3 and 4): the word placed is the one the next step
runs, the 33 bits of the number stand on `op` and `a`, and `y` is not touched by placing it. -/
def Obligations.PlacedTableWordRunsNext : Prop :=
  ∀ (s : State) (nbits w : Nat), ∃ i, decodeTableWord nbits w = some i ∧
    step (s.withFetchWord nbits w) = exec i (s.withFetchWord nbits w) ∧ (s.withFetchWord nbits w).y = s.y ∧
    (∀ j < 32, (s.withFetchWord nbits w).a.getLsbD j = (decide (j < nbits) && w.testBit j)) ∧
    (s.withFetchWord nbits w).op.getLsbD 0 = (decide (32 < nbits) && w.testBit 32)

/-- 30_encoding.md section 5 (R42): the written form of every line reads back as that line, alone, with a bracket annotation
after it and with a semicolon comment after it, any number of spaces before either and any characters within. The digits'
and names' form is the MODEL's (log entry 10). -/
def Obligations.WrittenLinesReadBack : Prop :=
  ∀ l : Line, Text.readLine (Text.line l) = some l ∧
    ∀ (spaces : Nat) (note : List Char),
      Text.readLine (Text.line l ++ List.replicate spaces ' ' ++ '(' :: note) = some l ∧
      Text.readLine (Text.line l ++ List.replicate spaces ' ' ++ ';' :: note) = some l

/-- 30_encoding.md section 5 (R42) and 70_reset_and_hazards.md section 3: what the check of a netlist checks: names are
bound once, and every name used is bound by an earlier line. -/
def Obligations.WellFormedNetlistsFeedForward : Prop :=
  ∀ p : Netlist, Netlist.wellFormed p = true ↔
    (p.map Line.dst).Nodup ∧
    ∀ (i : Nat) (l : Line) (n : Nat), p[i]? = some l → l.src = .name n →
      ∃ (j : Nat) (m : Line), j < i ∧ p[j]? = some m ∧ m.dst = n

/-- 30_encoding.md section 5 (R42), 40_bitcast.md section 3: from any state, a well-formed netlist runs to its end, and
binds a name to exactly the 32 bits of the literal at which the name's chain of wires begins, through any number of
casts of either kind. -/
def Obligations.NetlistsCarryLiteralsUnchanged : Prop :=
  ∀ (p : Netlist) (s : State), Netlist.wellFormed p = true →
    ∃ (s' : State) (env : Bindings), Netlist.run p s [] = some (s', env) ∧
      ∀ (n : Nat) (w : Word), env.lookup n = some w ↔ StartsAt p n w

/-- 30_encoding.md section 5 (R42): "evaluated in any order that respects the data dependencies": two well-formed orders
of the same lines, from any two states, bind every name alike. -/
def Obligations.NetlistOrderDoesNotShow : Prop :=
  ∀ (p q : Netlist) (s t : State), p.Perm q → Netlist.wellFormed p = true → Netlist.wellFormed q = true →
    ∃ (s' t' : State) (env env' : Bindings), Netlist.run p s [] = some (s', env) ∧ Netlist.run q t [] = some (t', env') ∧
      ∀ n : Nat, env.lookup n = env'.lookup n

/-- 30_encoding.md sections 6 to 8 (R50): the fields of the float are the bits of the integer, in both directions. -/
def Obligations.FloatFieldsAreIntegerBits : Prop :=
  (∀ x : F32, (floatToIntBits x).bits.extractLsb' 31 1 = x.sign ∧ (floatToIntBits x).bits.extractLsb' 23 8 = x.exponent ∧
    (floatToIntBits x).bits.extractLsb' 0 23 = x.fraction ∧
    uint (floatToIntBits x).bits = x.sign.toNat * 2 ^ 31 + x.exponent.toNat * 2 ^ 23 + x.fraction.toNat ∧
    (sint (floatToIntBits x).bits < 0 ↔ x.sign = 1#1)) ∧
  ∀ v : I32, (intBitsToFloat v).sign = v.bits.extractLsb' 31 1 ∧ (intBitsToFloat v).exponent = v.bits.extractLsb' 23 8 ∧
    (intBitsToFloat v).fraction = v.bits.extractLsb' 0 23 ∧
    uint v.bits = (intBitsToFloat v).sign.toNat * 2 ^ 31 + (intBitsToFloat v).exponent.toNat * 2 ^ 23 +
      (intBitsToFloat v).fraction.toNat ∧
    (sint v.bits < 0 ↔ (intBitsToFloat v).sign = 1#1)

/-- 00_scope.md section 6 (R6), 40_bitcast.md section 4 (R67): both integer readings are bijections between the vectors
and their ranges, with `bv32` the inverse. -/
def Obligations.IntegerReadingsAreBijections : Prop :=
  (∀ v : Word, uint v < 2 ^ 32 ∧ -2147483648 ≤ sint v ∧ sint v ≤ 2147483647 ∧ bv32 (sint v) = v ∧ bv32 (uint v) = v) ∧
  (∀ n : Int, (uint (bv32 n) : Int) = n % 2 ^ 32) ∧
  ∀ n : Int, -2147483648 ≤ n → n ≤ 2147483647 → sint (bv32 n) = n

/-- 30_encoding.md section 6 (R45): how many of the 2^32 patterns are in each class. -/
def Obligations.ClassesCountThePatterns : Prop :=
  Nat.card { x : F32 // x.classify = .zero } = 2 ∧
  Nat.card { x : F32 // x.classify = .denormal } = 16777214 ∧
  Nat.card { x : F32 // x.classify = .normal } = 4261412864 ∧
  Nat.card { x : F32 // x.classify = .infinity } = 2 ∧
  Nat.card { x : F32 // x.classify = .nan } = 16777214

/-- 30_encoding.md section 6 (R46): the value in units of `2^-149` is the number the spec's formula gives. -/
def Obligations.UnitsAgreeWithTheFormula : Prop :=
  ∀ x : F32, x.formula = x.value.signedUnits.map fun n => (n : Rat) / 2 ^ 149

/-- 30_encoding.md section 6 (R44), 95_test_vectors.md S3: the source's example. The fields, the exact value, that it is
nearer to 12345.63 than every other finite pattern of the 2^32, its two neighbours' values, and the bitcast in both
directions. Field places and values: log entry 5. -/
def Obligations.SourceExampleIsTheNearestPattern : Prop :=
  (F32.mk 0x4640E685#32).sign = 0#1 ∧ (F32.mk 0x4640E685#32).exponent = 140#8 ∧
  (F32.mk 0x4640E685#32).fraction = 4253317#23 ∧
  (F32.mk 0x4640E685#32).formula = some (12641925 / 1024) ∧
  (F32.mk 0x4640E684#32).formula = some (12641924 / 1024) ∧ (F32.mk 0x4640E686#32).formula = some (12641926 / 1024) ∧
  (∀ x : F32, x.classify ≠ .infinity → x.classify ≠ .nan → x.bits ≠ 0x4640E685#32 → ∃ q : Rat, x.formula = some q ∧
    |(12641925 / 1024 : Rat) - 1234563 / 100| < |q - 1234563 / 100|) ∧
  ∀ s : State, ∃ s' s'', transact (.f2i ⟨0x4640E685#32⟩) s = .next s' ∧ sint s'.y = 1178658437 ∧
    transact (.i2f ⟨bv32 1178658437⟩) s = .next s'' ∧ s''.y = 0x4640E685#32

/-- 30_encoding.md section 9 (R51): the patterns of the special values the source names, their classes and readings. -/
def Obligations.NamedConstantsReadAsListed : Prop :=
  ∀ c ∈ [(0x4640E685#32, FloatClass.normal, 0#1, 140#8, 0x40E685#23, (1178658437 : Int), 1178658437),
         (0x00000000#32, .zero, 0#1, 0#8, 0#23, 0, 0),
         (0x80000000#32, .zero, 1#1, 0#8, 0#23, -2147483648, 2147483648),
         (0x7F800000#32, .infinity, 0#1, 255#8, 0#23, 2139095040, 2139095040),
         (0xFF800000#32, .infinity, 1#1, 255#8, 0#23, -8388608, 4286578688),
         (0x7FC00001#32, .nan, 0#1, 255#8, 0x400001#23, 2143289345, 2143289345),
         (0x00000001#32, .denormal, 0#1, 0#8, 1#23, 1, 1),
         (0x7F7FFFFF#32, .normal, 0#1, 254#8, 0x7FFFFF#23, 2139095039, 2139095039)],
    (F32.mk c.1).classify = c.2.1 ∧ (F32.mk c.1).sign = c.2.2.1 ∧ (F32.mk c.1).exponent = c.2.2.2.1 ∧
    (F32.mk c.1).fraction = c.2.2.2.2.1 ∧ sint c.1 = c.2.2.2.2.2.1 ∧ uint c.1 = c.2.2.2.2.2.2

/-- 30_encoding.md section 9 (R52): the bitcast is not the value conversion. The integer `F2I` gives equals the float's
numeric value, or that value truncated, for one pattern of the 2^32 only, `+0.0`; and the float `I2F` gives has the
integer's numeric value for the integer 0 only. Then the rule's own numbers. Values: log entry 5. -/
def Obligations.BitcastIsNotTheValueConversion : Prop :=
  (∀ x : F32, x.value.signedUnits = some (sint (floatToIntBits x).bits * 2 ^ 149) ↔ x.bits = 0#32) ∧
  (∀ x : F32, (x.value.signedUnits.map fun n => n.tdiv (2 ^ 149)) = some (sint (floatToIntBits x).bits) ↔ x.bits = 0#32) ∧
  (∀ v : I32, (intBitsToFloat v).value.signedUnits = some (sint v.bits * 2 ^ 149) ↔ v.bits = 0#32) ∧
  ((F32.mk 0x4640E685#32).value.signedUnits.map fun n => n.tdiv (2 ^ 149)) = some 12345 ∧
  sint (floatToIntBits ⟨0x4640E685#32⟩).bits = 1178658437 ∧
  intBitsToFloat ⟨bv32 12345⟩ = ⟨0x00003039#32⟩ ∧ (intBitsToFloat ⟨bv32 12345⟩).value = .finite false 12345 ∧
  (F32.mk 0x4640E400#32).value = .finite false (12345 * 2 ^ 149)

/-! ### The bitcast family (40_bitcast.md) -/

/-- R53: `F2I`, whole: encoding, the 32 result bits, the result's readings, nothing else written, no exception and no
flag; then the rule's corner cases (pattern, `sint`, `uint`) and its example. -/
def Obligations.F2IYieldsTheOperandBits : Prop :=
  (∀ (value : F32) (s : State),
    encode (.f2i value) = 0#1 ++ value.bits ∧ decode (0#1 ++ value.bits) = .f2i value ∧ flagsWritten (.f2i value) = [] ∧
    ∃ s', exec (.f2i value) s = .next s' ∧ s'.op = s.op ∧ s'.a = s.a ∧ s'.block = s.block ∧
      (∀ i < 32, s'.y.getLsbD i = value.bits.getLsbD i) ∧
      sint s'.y = (uint value.bits : Int) - 2 ^ 32 * (value.bits.getLsbD 31).toNat ∧ uint s'.y = uint value.bits ∧
      uint value.bits = value.sign.toNat * 2 ^ 31 + value.exponent.toNat * 2 ^ 23 + value.fraction.toNat) ∧
  ∀ c ∈ [(0x00000000#32, (0 : Int), 0), (0x80000000#32, -2147483648, 2147483648), (0x7F800000#32, 2139095040, 2139095040),
         (0xFF800000#32, -8388608, 4286578688), (0x00000001#32, 1, 1), (0x7F7FFFFF#32, 2139095039, 2139095039),
         (0xFFFFFFFF#32, -1, 4294967295), (0x4640E685#32, 1178658437, 1178658437)],
    ∀ s : State, ∃ s', exec (.f2i ⟨c.1⟩) s = .next s' ∧ s'.y = c.1 ∧ sint s'.y = c.2.1 ∧ uint s'.y = c.2.2

/-- R54: `I2F`, whole: encoding, the 32 result bits, the result's fields, nothing else written, no exception and no flag;
then the rule's corner cases (`sint` of the operand, pattern, class, sign, fraction) and its example. -/
def Obligations.I2FYieldsTheOperandBits : Prop :=
  (∀ (bits : I32) (s : State),
    encode (.i2f bits) = 1#1 ++ bits.bits ∧ decode (1#1 ++ bits.bits) = .i2f bits ∧ flagsWritten (.i2f bits) = [] ∧
    ∃ s', exec (.i2f bits) s = .next s' ∧ s'.op = s.op ∧ s'.a = s.a ∧ s'.block = s.block ∧
      (∀ i < 32, s'.y.getLsbD i = bits.bits.getLsbD i) ∧
      (F32.mk s'.y).sign = bits.bits.extractLsb' 31 1 ∧ (F32.mk s'.y).exponent = bits.bits.extractLsb' 23 8 ∧
      (F32.mk s'.y).fraction = bits.bits.extractLsb' 0 23) ∧
  ∀ c ∈ [((0 : Int), 0x00000000#32, FloatClass.zero, 0#1, 0#23), (-2147483648, 0x80000000#32, .zero, 1#1, 0#23),
         (-1, 0xFFFFFFFF#32, .nan, 1#1, 0x7FFFFF#23), (2147483647, 0x7FFFFFFF#32, .nan, 0#1, 0x7FFFFF#23),
         (2139095040, 0x7F800000#32, .infinity, 0#1, 0#23), (-8388608, 0xFF800000#32, .infinity, 1#1, 0#23),
         (1, 0x00000001#32, .denormal, 0#1, 1#23), (8388608, 0x00800000#32, .normal, 0#1, 0#23),
         (12345, 0x00003039#32, .denormal, 0#1, 0x3039#23), (1178658437, 0x4640E685#32, .normal, 0#1, 0x40E685#23)],
    ∀ s : State, ∃ s', exec (.i2f ⟨bv32 c.1⟩) s = .next s' ∧ s'.y = c.2.1 ∧ (F32.mk s'.y).classify = c.2.2.1 ∧
      (F32.mk s'.y).sign = c.2.2.2.1 ∧ (F32.mk s'.y).fraction = c.2.2.2.2

/-- 40_bitcast.md section 3 (R55): one datapath, the identity on 32 bits, under both selector values: a step in any state
answers that state with `y = a`. -/
def Obligations.DatapathIsTheIdentity : Prop :=
  ∀ s : State, step s = .next { s with y := s.a }

/-- R56: float to integer to float gives back all 32 bits, as functions and through the machine. -/
def Obligations.FloatIntFloatRoundTrips : Prop :=
  ∀ (x : F32) (s : State), intBitsToFloat (floatToIntBits x) = x ∧
    ∃ s' s'', transact (.f2i x) s = .next s' ∧ transact (.i2f ⟨s'.y⟩) s' = .next s'' ∧ F32.mk s''.y = x

/-- R57: integer to float to integer gives back all 32 bits, as functions and through the machine. -/
def Obligations.IntFloatIntRoundTrips : Prop :=
  ∀ (v : I32) (s : State), floatToIntBits (intBitsToFloat v) = v ∧
    ∃ s' s'', transact (.i2f v) s = .next s' ∧ transact (.f2i ⟨s'.y⟩) s' = .next s'' ∧ I32.mk s''.y = v

/-- 40_bitcast.md section 3 (R58): each operation is a bijection of the 2^32 vectors, and each inverts the other: `I2F`
gives `x` from `v` exactly when `F2I` gives `v` from `x`. -/
def Obligations.OperationsAreInverseBijections : Prop :=
  Function.Bijective floatToIntBits ∧ Function.Bijective intBitsToFloat ∧
  ∀ (x : F32) (v : I32), floatToIntBits x = v ↔ intBitsToFloat v = x

/-- R59: no NaN canonicalisation: sign, exponent and fraction of a NaN pass, the quiet bit with them, under both
operations; two NaNs give distinct integers, and back the two NaNs. -/
def Obligations.NaNPatternsAreNotCanonicalised : Prop :=
  (∀ (o : Op) (v : Word) (s : State), (F32.mk v).classify = .nan →
    ∃ s', transact (o.apply v) s = .next s' ∧ (F32.mk s'.y).classify = .nan ∧ (F32.mk s'.y).sign = (F32.mk v).sign ∧
      (F32.mk s'.y).exponent = (F32.mk v).exponent ∧ (F32.mk s'.y).fraction = (F32.mk v).fraction ∧
      (F32.mk s'.y).isQuietNaN = (F32.mk v).isQuietNaN ∧ (F32.mk s'.y).isSignallingNaN = (F32.mk v).isSignallingNaN) ∧
  ∀ x x' : F32, x.classify = .nan → x'.classify = .nan → x ≠ x' →
    floatToIntBits x ≠ floatToIntBits x' ∧
    intBitsToFloat (floatToIntBits x) = x ∧ intBitsToFloat (floatToIntBits x') = x'

/-- R60: the two zeros give different integers, though they compare equal as numbers, and `I2F` maps them back. -/
def Obligations.SignOfZeroIsPreserved : Prop :=
  floatToIntBits ⟨0x00000000#32⟩ = ⟨0x00000000#32⟩ ∧ sint (floatToIntBits ⟨0x00000000#32⟩).bits = 0 ∧
  floatToIntBits ⟨0x80000000#32⟩ = ⟨0x80000000#32⟩ ∧ sint (floatToIntBits ⟨0x80000000#32⟩).bits = -2147483648 ∧
  uint (floatToIntBits ⟨0x80000000#32⟩).bits = 2147483648 ∧
  intBitsToFloat ⟨0x00000000#32⟩ = ⟨0x00000000#32⟩ ∧ intBitsToFloat ⟨0x80000000#32⟩ = ⟨0x80000000#32⟩ ∧
  F32.numericEq ⟨0x00000000#32⟩ ⟨0x80000000#32⟩ = true

/-- R61: no special value is altered: class and numeric value of every pattern pass, so an infinity keeps its sign, a
denormal is neither flushed nor normalised, a finite value is not rounded. -/
def Obligations.NoValueIsAltered : Prop :=
  ∀ (o : Op) (v : Word) (s : State), ∃ s', transact (o.apply v) s = .next s' ∧
    (F32.mk s'.y).classify = (F32.mk v).classify ∧ (F32.mk s'.y).value = (F32.mk v).value ∧
    (F32.mk s'.y).negative = (F32.mk v).negative ∧ s'.y = v

/-- R63: `y` is a function of `a` alone: two states with the same `a`, whatever stands on `op` and `y` in each, give the
same `y`. -/
def Obligations.OutputDependsOnTheOperandAlone : Prop :=
  ∀ s t : State, s.a = t.a → ∃ s' t', step s = .next s' ∧ step t = .next t' ∧ s'.y = t'.y

/-- R66: the equality of every law, of Float32 and of Int32, is equality of all 32 bits; numeric equality differs from it, at the NaNs and at the
two zeros. -/
def Obligations.EqualityIsOfAllBits : Prop :=
  (∀ x y : F32, x = y ↔ ∀ i < 32, x.bits.getLsbD i = y.bits.getLsbD i) ∧
  (∀ u v : I32, u = v ↔ ∀ i < 32, u.bits.getLsbD i = v.bits.getLsbD i) ∧
  (∀ x : F32, x.classify = .nan → F32.numericEq x x = false) ∧
  F32.numericEq ⟨0x00000000#32⟩ ⟨0x80000000#32⟩ = true ∧ (F32.mk 0x00000000#32) ≠ ⟨0x80000000#32⟩

/-- 40_bitcast.md section 3 (R66) and 30_encoding.md section 6 (R46): numeric equality and bit equality part company
nowhere but at the NaNs and the zeros. The spec gives numeric comparison at those only; that finite values compare by
number, and infinities of one sign compare equal, is IEEE-754's, PRESUMED in log entry 5. -/
def Obligations.NumericEqualityIsBitEqualityElsewhere : Prop :=
  ∀ x y : F32, F32.numericEq x y = true ↔
    x.classify ≠ .nan ∧ y.classify ≠ .nan ∧ (x = y ∨ x.classify = .zero ∧ y.classify = .zero)

end
end

