-- ==== Sys2Proof/Laws/Decode.lean ====
section
/-! SUPPORT. What the pieces of the decoder and the encoder do. -/

namespace Sys2Proof

@[simp] theorem Op.op_apply (o : Op) (a : Word) : (o.apply a).op = o := by cases o <;> rfl
@[simp] theorem Op.operand_apply (o : Op) (a : Word) : (o.apply a).operand = a := by cases o <;> rfl
@[simp] theorem Instr.apply_op_operand (i : Instr) : i.op.apply i.operand = i := by cases i <;> rfl
@[simp] theorem Op.ofSelector_selector (o : Op) : Op.ofSelector o.selector = o := by cases o <;> rfl

@[simp] theorem Op.selector_ofSelector (b : BitVec 1) : (Op.ofSelector b).selector = b := by
  revert b
  decide

@[simp] theorem selectorField_append (b : BitVec 1) (a : Word) : selectorField (b ++ a) = b := by
  unfold selectorField
  exact BitVec.extractLsb'_append_eq_left

@[simp] theorem operandField_append (b : BitVec 1) (a : Word) : operandField (b ++ a) = a := by
  unfold operandField
  exact BitVec.extractLsb'_append_eq_right

/-- Bit `j` of the word `{b, a}` (R35). -/
theorem getLsbD_transactionWord (b : BitVec 1) (a : Word) (j : Nat) :
    BitVec.getLsbD (b ++ a : TransactionWord) j = if j < 32 then a.getLsbD j else b.getLsbD (j - 32) :=
  BitVec.getLsbD_append

/-- Bit `j` of the word a table number of `nbits` bits stands for. -/
theorem getLsbD_tableWord (nbits w j : Nat) :
    (tableWord nbits w).getLsbD j = (decide (j < 33) && (decide (j < nbits) && w.testBit j)) := by
  rw [tableWord, BitVec.getLsbD_ofNat, Nat.testBit_mod_two_pow]

/-- The selector field is bit 32. -/
theorem selectorField_eq_ofBool (t : TransactionWord) : selectorField t = BitVec.ofBool (t.getLsbD 32) := by
  apply BitVec.eq_of_getLsbD_eq
  intro j hj
  have : j = 0 := by omega
  simp [selectorField, this]

/-- A transaction word is its two fields. -/
theorem selectorField_append_operandField (t : TransactionWord) :
    (selectorField t ++ operandField t : TransactionWord) = t := by
  apply BitVec.eq_of_getLsbD_eq
  intro j hj
  rw [getLsbD_transactionWord]
  by_cases h : j < 32
  · simp [h, operandField]
  · have : j = 32 := by omega
    simp [this, selectorField]

end Sys2Proof
end

