-- ==== Sys2Proof/Laws/State.lean ====
section
/-! SUPPORT. One lemma per field of State and update of it. -/

namespace Sys2Proof.Machine

@[simp] theorem State.driveY_op (w : Word) (s : State) : (s.driveY w).op = s.op := rfl
@[simp] theorem State.driveY_a (w : Word) (s : State) : (s.driveY w).a = s.a := rfl
@[simp] theorem State.driveY_y (w : Word) (s : State) : (s.driveY w).y = w := rfl
@[simp] theorem State.driveY_block (w : Word) (s : State) : (s.driveY w).block = s.block := rfl

@[simp] theorem State.presentWord_op (t : TransactionWord) (s : State) : (s.presentWord t).op = selectorField t := rfl
@[simp] theorem State.presentWord_a (t : TransactionWord) (s : State) : (s.presentWord t).a = operandField t := rfl
@[simp] theorem State.presentWord_y (t : TransactionWord) (s : State) : (s.presentWord t).y = s.y := rfl
@[simp] theorem State.presentWord_block (t : TransactionWord) (s : State) : (s.presentWord t).block = s.block := rfl

@[simp] theorem State.present_y (i : Instr) (s : State) : (s.present i).y = s.y := rfl
@[simp] theorem State.present_block (i : Instr) (s : State) : (s.present i).block = s.block := rfl

/-- The block's state has one value, so two states that agree on the three signals are equal. -/
theorem State.ext_signals {s t : State} (hop : s.op = t.op) (ha : s.a = t.a) (hy : s.y = t.y) : s = t := by
  cases s
  cases t
  simp_all

end Sys2Proof.Machine
end

