-- ==== Sys2Proof/Laws/Ops.lean ====
section
/-! SUPPORT. One lemma for each shared operation that says all it can do. -/

namespace Sys2Proof.Machine

/-- Driving wire `i` sets that wire and leaves the others. -/
theorem driveWire_getLsbD (y : Word) (i j : Nat) (b : Bool) (hi : i < 32) :
    (driveWire y i b).getLsbD j = if j = i then b else y.getLsbD j := by
  unfold driveWire
  by_cases hj : j = i
  · subst hj
    cases b <;> simp [hi]
  · have hij : i ≠ j := fun h => hj h.symm
    cases b <;> simp [BitVec.getLsbD_twoPow, hij, hj]
    exact BitVec.lt_of_getLsbD

/-- After `n` wires, those below `n` carry the operand's bits and the rest read 0. -/
theorem driveWires_getLsbD (a : Word) (n j : Nat) (hn : n ≤ 32) :
    (driveWires a n).getLsbD j = (decide (j < n) && a.getLsbD j) := by
  induction n with
  | zero => simp [driveWires]
  | succ n ih =>
    rw [driveWires, driveWire_getLsbD _ _ _ _ (by omega), ih (by omega)]
    by_cases h : j = n
    · simp [h]
    · have : (j < n + 1) ↔ (j < n) := by omega
      simp [h, this]

/-- The datapath is the identity on 32 bits. -/
theorem bitcast_eq (a : Word) : bitcast a = a := by
  ext i h
  have := driveWires_getLsbD a 32 i (Nat.le_refl 32)
  rw [← BitVec.getLsbD_eq_getElem, ← BitVec.getLsbD_eq_getElem]
  simpa [bitcast, h] using this

@[simp] theorem State.presentedWord_presentWord (t : TransactionWord) (s : State) :
    (s.presentWord t).presentedWord = t :=
  selectorField_append_operandField t

/-- Either operation drives `y` with the wires of its operand, and does nothing else. -/
theorem exec_eq (i : Instr) (s : State) : exec i s = .next (s.driveY (bitcast i.operand)) := by
  cases i <;> rfl

/-- All a step can do: it drives `y` with the wires of the operand input. -/
theorem step_eq (s : State) : step s = .next (s.driveY (bitcast s.a)) := by
  rw [step, exec_eq, decode, Op.operand_apply, State.presentedWord, operandField_append]

end Sys2Proof.Machine
end

