-- ==== Sys2Proof/Laws/Caller.lean ====
section
/-! SUPPORT. What presenting a transaction, to one instance or to one of a bank, does. -/

namespace Sys2Proof.Machine

@[simp] theorem State.present_op (i : Instr) (s : State) : (s.present i).op = i.op.selector := by
  simp [State.present, encode]

@[simp] theorem State.present_a (i : Instr) (s : State) : (s.present i).a = i.operand := by
  simp [State.present, encode]

/-- Presenting a transaction and evaluating it. -/
theorem transact_eq (i : Instr) (s : State) :
    transact i s = .next ((s.present i).driveY (bitcast i.operand)) := by
  rw [transact, step_eq, State.present_a]

/-- A transaction on an instance that exists. -/
theorem Bank.transactOn_eq (k : Nat) (i : Instr) (b : Bank) (s : State) (h : b[k]? = some s) :
    Bank.transactOn k i b = some (b.set k ((s.present i).driveY (bitcast i.operand)), bitcast i.operand) := by
  simp [Bank.transactOn, h, transact_eq]

/-- A transaction keeps the number of instances. -/
theorem Bank.transactOn_length {k : Nat} {i : Instr} {b b' : Bank} {y : Word}
    (h : Bank.transactOn k i b = some (b', y)) : b'.length = b.length := by
  cases hs : b[k]? with
  | none => simp [Bank.transactOn, hs] at h
  | some s =>
    rw [Bank.transactOn_eq k i b s hs] at h
    cases h
    simp

end Sys2Proof.Machine
end

