-- ==== Sys2Proof/Laws/Operands.lean ====
section
/-! SUPPORT. A pattern is its three fields, and the integer readings in Lean's own terms. -/

namespace Sys2Proof

/-- Bit `j` of a pattern with given fields (R43). -/
theorem F32.getLsbD_ofFields (s : BitVec 1) (e : BitVec 8) (f : BitVec 23) (j : Nat) :
    (F32.ofFields s e f).bits.getLsbD j =
      if j < 23 then f.getLsbD j else if j < 31 then e.getLsbD (j - 23) else s.getLsbD (j - 31) := by
  change BitVec.getLsbD (s ++ (e ++ f)) j = _
  rw [BitVec.getLsbD_append, BitVec.getLsbD_append]
  by_cases h : j < 23
  · have : j < 8 + 23 := by omega
    simp [h, this]
  · simp [h]

@[simp] theorem F32.sign_ofFields (s : BitVec 1) (e : BitVec 8) (f : BitVec 23) : (F32.ofFields s e f).sign = s := by
  apply BitVec.eq_of_getLsbD_eq
  intro j hj
  have : j = 0 := by omega
  subst this
  rw [F32.sign, BitVec.getLsbD_extractLsb', F32.getLsbD_ofFields]
  simp

@[simp] theorem F32.exponent_ofFields (s : BitVec 1) (e : BitVec 8) (f : BitVec 23) :
    (F32.ofFields s e f).exponent = e := by
  apply BitVec.eq_of_getLsbD_eq
  intro j hj
  have h1 : 23 + j < 31 := by omega
  simp [F32.exponent, F32.getLsbD_ofFields, h1, hj]

@[simp] theorem F32.fraction_ofFields (s : BitVec 1) (e : BitVec 8) (f : BitVec 23) :
    (F32.ofFields s e f).fraction = f := by
  apply BitVec.eq_of_getLsbD_eq
  intro j hj
  simp [F32.fraction, F32.getLsbD_ofFields, hj]

/-- The pattern with a pattern's own fields is that pattern. -/
@[simp] theorem F32.ofFields_fields (x : F32) : F32.ofFields x.sign x.exponent x.fraction = x := by
  have : (F32.ofFields x.sign x.exponent x.fraction).bits = x.bits := by
    apply BitVec.eq_of_getLsbD_eq
    intro j hj
    rw [F32.getLsbD_ofFields]
    by_cases h : j < 23
    · simp [h, F32.fraction]
    · by_cases h' : j < 31
      · have h1 : j - 23 < 8 := by omega
        have h2 : 23 + (j - 23) = j := by omega
        simp [h, h', F32.exponent, h1, h2]
      · have h1 : j = 31 := by omega
        simp [h1, F32.sign]
  cases x
  exact congrArg F32.mk this

/-- Two patterns with the same fields are the same pattern. -/
theorem F32.ext_fields {x y : F32} (hs : x.sign = y.sign) (he : x.exponent = y.exponent)
    (hf : x.fraction = y.fraction) : x = y := by
  rw [← F32.ofFields_fields x, ← F32.ofFields_fields y, hs, he, hf]

/-- The two's complement reading is Lean's. -/
theorem sint_eq_toInt (v : Word) : sint v = v.toInt := by
  have hm : v.msb = v.getLsbD 31 := BitVec.msb_eq_getLsbD_last v
  rw [sint, uint, BitVec.toInt_eq_msb_cond, hm]
  cases v.getLsbD 31 <;> simp

end Sys2Proof
end

