-- ==== Sys2Proof/Laws/PerInstr.lean ====
section
/-! SUPPORT. A law of every instruction as it is written: its word selects its own row of the opcode table and no
other, and holds the operand whole. -/

namespace Sys2Proof.Laws.RowOfWord

/-- The rows the instruction's word selects are its own row alone, and the word's low 32 bits are the operand. -/
def Statement (i : Instr) : Prop :=
  i.wellFormed = true ∧
    (opcodeTable.filter fun r => r.selectedBy (encode i)).map OpcodeRow.op = [i.op] ∧
    operandField (encode i) = i.operand

/-- Both rows mask the selector field alone. -/
theorem and_mask (c : BitVec 1) (a : Word) :
    (c ++ a : TransactionWord) &&& 0x100000000#33 = (c ++ 0#32 : TransactionWord) := by
  apply BitVec.eq_of_getLsbD_eq
  intro j hj
  have hmask : (0x100000000#33 : TransactionWord) = BitVec.twoPow 33 32 := by decide
  rw [BitVec.getLsbD_and, hmask, BitVec.getLsbD_twoPow, getLsbD_transactionWord, getLsbD_transactionWord]
  by_cases h : j < 32
  · have : 32 ≠ j := by omega
    simp [h, this]
  · have : j = 32 := by omega
    simp [this]

/-- A word selects the row that has its selector. -/
theorem selectedBy_iff (r : OpcodeRow) (hr : r ∈ opcodeTable) (b : BitVec 1) (a : Word) :
    r.selectedBy (b ++ a) = (r.op.selector == b) := by
  have hb : b = 0#1 ∨ b = 1#1 := by
    revert b
    decide
  simp only [opcodeTable, List.mem_cons, List.not_mem_nil, or_false] at hr
  rcases hr with rfl | rfl <;> rcases hb with rfl | rfl <;> simp only [OpcodeRow.selectedBy, and_mask] <;> rfl

theorem f2i (value : F32) : Statement (.f2i value) := by
  refine ⟨rfl, ?_, operandField_append _ _⟩
  have h := fun r hr => selectedBy_iff r hr 0#1 value.bits
  simp only [opcodeTable, List.mem_cons, List.not_mem_nil, or_false, forall_eq_or_imp, forall_eq] at h
  simp [opcodeTable, encode, Instr.op, Instr.operand, Op.selector, h.1, h.2]

theorem i2f (bits : I32) : Statement (.i2f bits) := by
  refine ⟨rfl, ?_, operandField_append _ _⟩
  have h := fun r hr => selectedBy_iff r hr 1#1 bits.bits
  simp only [opcodeTable, List.mem_cons, List.not_mem_nil, or_false, forall_eq_or_imp, forall_eq] at h
  simp [opcodeTable, encode, Instr.op, Instr.operand, Op.selector, h.1, h.2]

end Sys2Proof.Laws.RowOfWord
end

