-- ==== Sys2Proof/Laws/Run.lean ====
section
/-! SUPPORT. How the host's run of a machine unfolds, one step at a time. -/

namespace Sys2Proof.Machine

/-- A run goes on from a step's next state. -/
theorem run_succ_of_next (M : Host.Core) {s s' : M.State} (h : M.step s = .next s') (k : Nat) :
    M.run (k + 1) s = M.run k s' := by
  simp only [Host.Core.run, h]

/-- This machine's run: every step goes on. -/
theorem core_run_succ (k : Nat) (s : State) :
    Sys2Proof.core.run (k + 1) s = Sys2Proof.core.run k (s.driveY (bitcast s.a)) :=
  run_succ_of_next Sys2Proof.core (step_eq s) k

end Sys2Proof.Machine
end

