-- ==== Sys2Proof/Tests/Slice0.lean ====
section
/-! SUPPORT. Tests with expected results from 95_test_vectors.md and the rules' own examples, the smoke tests of
WellFormed, and for every statement that has hypotheses a witness that meets them. -/

namespace Sys2Proof.Machine.Tests

/-- A state with given signals. -/
def st (op : BitVec 1) (a y : Word) : State := ⟨op, a, y, ⟨⟩⟩

/-- The `y` of an answer, if it is a next state. -/
def yOf : Host.Outcome State Fault Refusal → Option Word
  | .next s    => some s.y
  | .fault _   => none
  | .refused _ => none

/-! ### Decoding and encoding: words of 95_test_vectors.md S3 and V1, written out bit by bit -/

theorem test_decode_F2I : decode 0b0_01000110010000001110011010000101#33 = .f2i ⟨0x4640E685#32⟩ := by decide
theorem test_decode_I2F : decode 0b1_01000110010000001110011010000101#33 = .i2f ⟨0x4640E685#32⟩ := by decide
theorem test_encode_F2I : encode (.f2i ⟨0xFFC00001#32⟩) = 0x0FFC00001#33 := by decide
theorem test_encode_I2F : encode (.i2f ⟨0x00003039#32⟩) = 0x100003039#33 := by decide
theorem test_table_word : decodeTableWord 40 0x180000000 = some (.i2f ⟨0x80000000#32⟩) := by decide

/-! ### The operations: 95_test_vectors.md S3, V3 -/

/-- V3: a signalling NaN is not quieted to `0x7FC00001`; the selector is `F2I`'s, the old `y` is gone. -/
theorem test_F2I_signalling_nan : yOf (step (st 0 0x7F800001 0xFFFFFFFF)) = some 0x7F800001#32 := by decide
/-- V3: all ones is no canonical NaN (`0x7FC00000`), and the inputs stand as they stood. -/
theorem test_F2I_all_ones : exec (.f2i ⟨0xFFFFFFFF⟩) (st 1 5 6) = .next (st 1 5 0xFFFFFFFF) := rfl
/-- V3: the integer 12345 gives a denormal, not 12345.0 (`0x4640E400`). -/
theorem test_I2F_not_a_value_cast : yOf (step (st 1 0x00003039 0)) = some 0x00003039#32 := by decide
/-- V3: the smallest denormal is not flushed. -/
theorem test_I2F_denormal : exec (.i2f ⟨0x00000001⟩) (st 0 5 6) = .next (st 0 5 1) := rfl

/-- The placed table word runs as the first instruction after reset. -/
theorem test_first_instruction : yOf (step (State.reset.withFetchWord 40 0x14640E685)) = some 0x4640E685#32 := by decide

/-! ### Readings: 95_test_vectors.md V1, 40_bitcast.md R60 -/

theorem test_readings : sint 0xDEADBEEF = -559038737 ∧ uint 0xDEADBEEF = 3735928559 ∧ bv32 (-8388609) = 0xFF7FFFFF#32 := by
  decide
theorem test_fields : (F32.mk 0xDEADBEEF).sign = 1#1 ∧ (F32.mk 0xDEADBEEF).exponent = 189#8 ∧
    (F32.mk 0xDEADBEEF).fraction = 0x2DBEEF#23 := by decide
theorem test_classes : (F32.mk 0x807FFFFF).classify = .denormal ∧ (F32.mk 0x00800000).classify = .normal ∧
    (F32.mk 0xFF800000).classify = .infinity ∧ (F32.mk 0x7FBFFFFF).isSignallingNaN = true ∧
    (F32.mk 0x7FC00000).isQuietNaN = true := by decide
theorem test_value : (F32.mk 0xBF800000).value = .finite true (2 ^ 149) ∧ (F32.mk 0x80000000).value = .finite true 0 := by
  decide
theorem test_numericEq : F32.numericEq ⟨0x80000000⟩ ⟨0⟩ = true ∧ F32.numericEq ⟨0x7FC00001⟩ ⟨0x7FC00001⟩ = false := by
  decide

/-! ### The caller: 95_test_vectors.md P1, P2; 10_state.md R19 -/

/-- P1; the first two chains of P2, in two orders of their lines. -/
def p1 : Netlist := [⟨0, .f2i, .literal 0x4640E685⟩, ⟨1, .i2f, .name 0⟩]
def p2 : Netlist := [⟨0, .i2f, .literal 0x80000000⟩, ⟨2, .i2f, .literal 0xFFFFFFFF⟩, ⟨1, .f2i, .name 0⟩, ⟨3, .f2i, .name 2⟩]
def p2' : Netlist := [⟨2, .i2f, .literal 0xFFFFFFFF⟩, ⟨3, .f2i, .name 2⟩, ⟨0, .i2f, .literal 0x80000000⟩, ⟨1, .f2i, .name 0⟩]

theorem test_netlist_round_trip :
    (Netlist.run p1 State.reset []).map Prod.snd = some [(1, 0x4640E685#32), (0, 0x4640E685#32)] := by decide
theorem test_unknown_wires : bitcastWires ((Vector.replicate 32 Wire.high).set 7 Wire.unknown) =
    (Vector.replicate 32 Wire.high).set 7 Wire.unknown := by decide
theorem test_text_line : Text.line ⟨1, .i2f, .name 0⟩ = ['t', '1', ' ', '=', ' ', 'I', '2', 'F', ' ', 't', '0'] := by decide
theorem test_text_word : Text.word 0x14640E685 = ['0', 'x', '1', '_', '4', '6', '4', '0', 'E', '6', '8', '5'] := by decide
/-- A literal annotated as R42 shows, with spaces before it and no comment after. -/
theorem test_text_comment :
    Text.readLine (Text.line ⟨0, .f2i, .literal 0x4640E685⟩ ++ [' ', ' ', '(', 'F', 'l', ')']) =
      some ⟨0, .f2i, .literal 0x4640E685⟩ := by decide
/-- Seven digits are no 32-bit literal. -/
theorem test_text_refuses : Text.readSrc ['0', 'x', '1', '2', '3', '4', '5', '6', '7'] = none := by decide

/-! ### WellFormed: each check refuses an ill-formed term -/

theorem smoke_name_bound_twice : Netlist.wellFormed [⟨0, .f2i, .literal 0⟩, ⟨0, .i2f, .literal 1⟩] = false := by decide
theorem smoke_name_used_before : Netlist.wellFormed [⟨0, .f2i, .name 1⟩, ⟨1, .i2f, .literal 1⟩] = false := by decide
theorem smoke_feedback : Netlist.wellFormed [⟨0, .f2i, .name 0⟩] = false := by decide
theorem smoke_good : Netlist.wellFormed p2 = true := by decide
/-- No instruction is ill-formed (R19), so the check of instructions has nothing to refuse. -/
theorem smoke_instructions : Instr.wellFormed (.f2i ⟨0x7F800001⟩) = true ∧ Instr.wellFormed (.i2f ⟨0xFFFFFFFF⟩) = true := by
  decide

/-! ### Witnesses of the statements' hypotheses -/

/-- EarlierTransactionsLeaveNoTrace, InterleavingsAnswerAlike: a schedule served on a bank, and on another bank in the
other order, each with instances that exist. -/
theorem witness_schedules :
    Bank.serve [(0, .f2i ⟨5⟩), (1, .i2f ⟨7⟩)] [st 0 1 2, st 1 3 4] = some ([st 0 5 5, st 1 7 7], [5, 7]) ∧
    Bank.serve [(0, .i2f ⟨7⟩), (0, .f2i ⟨5⟩)] [st 0 9 9] = some ([st 0 5 5], [7, 5]) ∧
    ([(0, Instr.f2i ⟨5⟩), (1, Instr.i2f ⟨7⟩)].map Prod.snd).Perm ([(0, Instr.i2f ⟨7⟩), (0, Instr.f2i ⟨5⟩)].map Prod.snd) ∧
    (0 < [st 0 1 2, st 1 3 4].length ∧ 1 < [st 0 1 2, st 1 3 4].length) ∧
    ∀ e ∈ [(0, Instr.f2i ⟨5⟩), (1, Instr.i2f ⟨7⟩)], e.1 < [st 0 1 2, st 1 3 4].length := by decide
/-- InstancesShareNothing: a transaction on one instance beside another. -/
theorem witness_instances :
    Bank.transactOn 1 (.f2i ⟨5⟩) [st 0 1 2, st 1 3 4] = some ([st 0 1 2, st 0 5 5], 5) ∧ (0 : Nat) ≠ 1 ∧
    1 < [st 0 1 2, st 1 3 4].length := by decide
/-- InstancesShareNothing, its last clause: the empty schedule, whatever `N_INST` is. -/
theorem witness_reset_bank : Bank.serve [] Bank.reset = some (Bank.reset, []) := rfl
/-- SourceExampleIsTheNearestPattern: a finite pattern that is another one. -/
theorem witness_other_finite : (F32.mk 0x4640E684).classify ≠ .infinity ∧ (F32.mk 0x4640E684).classify ≠ .nan ∧
    (F32.mk 0x4640E684).bits ≠ 0x4640E685#32 := by decide
/-- SignalsAreTheWholeState, NothingIsSignalled. -/
theorem witness_signals : State.reset.op = (st 0 0 0).op ∧ State.reset.a = (st 0 0 0).a ∧ State.reset.y = (st 0 0 0).y := by
  decide
/-- OnlyTheOutputIsDriven and EveryStepSettlesTheOutput: from a state that is not settled. -/
theorem witness_next_states : exec (.i2f ⟨9⟩) (st 0 5 6) = .next (st 0 5 9) ∧ step (st 0 5 6) = .next (st 0 5 5) ∧
    ¬ (st 0 5 6).Settled := ⟨rfl, rfl, by decide⟩
/-- EvaluationIsIdempotentAndDiscardable. -/
theorem witness_transact : transact (.i2f ⟨9⟩) (st 0 5 6) = .next (st 1 9 9) := rfl
/-- ByteLanesPassStraightThrough: the lowest and the highest lane. -/
theorem witness_lanes : lane 0 0x12345678 = 0x78#8 ∧ lane 3 0x12345678 = 0x12#8 ∧ (0 < 4 ∧ 3 < 4) := by decide
/-- NaNPatternsAreNotCanonicalised, EqualityIsOfAllBits: the pairs of S4. -/
theorem witness_nans : (F32.mk 0x7FC00001).classify = .nan ∧ (F32.mk 0x7FC00002).classify = .nan ∧
    (F32.mk 0x7FC00001) ≠ ⟨0x7FC00002⟩ := by decide
/-- EqualityIsOfAllBits, PlacedTableWordRunsNext: the lowest and the highest wire. -/
theorem witness_wires : (0x80000001#32).getLsbD 0 = true ∧ (0x80000001#32).getLsbD 31 = true ∧ (0 < 32 ∧ 31 < 32) := by decide
/-- FeedbackHoldsAnyValueAndIsRefused: a netlist with a line that names its own result. -/
theorem witness_feedback : (⟨1, .i2f, .name 1⟩ : Line) ∈ [⟨0, .f2i, .literal 0⟩, ⟨1, .i2f, .name 1⟩] := by decide
/-- EveryWordSelectsExactlyOneRow: the last word of one row and the first of the other. -/
theorem witness_words : (0x0FFFFFFFF#33).getLsbD 32 = false ∧ (0x100000000#33).getLsbD 32 = true := by decide
/-- StepRunsThePresentedTransaction. -/
theorem witness_presented : decode ((st 1 5 6).op ++ (st 1 5 6).a) = .i2f ⟨5⟩ := by decide
/-- NetlistsCarryLiteralsUnchanged, NetlistOrderDoesNotShow, WellFormedNetlistsFeedForward. -/
theorem witness_netlists : p2.Perm p2' ∧ Netlist.wellFormed p2 = true ∧ Netlist.wellFormed p2' = true ∧
    p2[2]? = some ⟨1, .f2i, .name 0⟩ := by decide
/-- IntegerReadingsAreBijections: the ends of the range. -/
theorem witness_range : sint (bv32 (-2147483648)) = -2147483648 ∧ sint (bv32 2147483647) = 2147483647 := by decide
/-- OutputDependsOnTheOperandAlone: two states that share `a` and nothing else. -/
theorem witness_same_operand : (st 0 5 6).a = (st 1 5 7).a ∧ st 0 5 6 ≠ st 1 5 7 := by decide

end Sys2Proof.Machine.Tests
end

section
/-! PROOFS. 10_state.md: what a transaction leaves as it stands. -/

namespace Sys2Proof.Machine

/-- The frame of both operations (R18): by `exec_eq` the next state is `driveY` of the state before. -/
theorem exec_frame {i : Instr} {s s' : State} (h : exec i s = .next s') :
    s'.op = s.op ∧ s'.a = s.a ∧ s'.block = s.block := by
  rw [exec_eq] at h
  cases h
  exact ⟨State.driveY_op _ s, State.driveY_a _ s, State.driveY_block _ s⟩

/-- A step is one operation on the presented word, so it has the operations' frame (R5, R18). -/
theorem step_frame {s s' : State} (h : step s = .next s') :
    s'.op = s.op ∧ s'.a = s.a ∧ s'.block = s.block :=
  exec_frame (i := decode s.presentedWord) h

/-- Settles O3: the frame of `exec`, which `step` inherits. -/
theorem onlyTheOutputIsDriven : Obligations.OnlyTheOutputIsDriven :=
  ⟨fun _ _ _ h => exec_frame h, fun _ _ h => step_frame h⟩

end Sys2Proof.Machine
end

section
/-! PROOFS. 20_memory.md: evaluating again, and discarding an evaluation. -/

namespace Sys2Proof.Machine

/-- A state that a step leaves as it is stands through any run. -/
theorem run_of_step_fixed (M : Host.Core) {s : M.State} (h : M.step s = .next s) (k : Nat) :
    M.run k s = .next s := by
  induction k with
  | zero => rfl
  | succ k ih => rw [run_succ_of_next M h, ih]

/-- Of two values driven on `y` the later one stands. -/
@[simp] theorem State.driveY_driveY (v w : Word) (s : State) : (s.driveY v).driveY w = s.driveY w := rfl

/-- A step keeps the operand it reads, so the next step drives the same `y` (R27). -/
theorem step_idempotent {s s' : State} (h : step s = .next s') : step s' = .next s' := by
  rw [step_eq] at h
  cases h
  rw [step_eq, State.driveY_a, State.driveY_driveY]

/-- One step or more give the state the first one gives. -/
theorem core_run_succ_of_step {s s' : State} (h : step s = .next s') (k : Nat) :
    Sys2Proof.core.run (k + 1) s = .next s' :=
  (run_succ_of_next Sys2Proof.core h k).trans (run_of_step_fixed Sys2Proof.core (step_idempotent h) k)

/-- A transaction sets all three signals, so nothing of the state it starts from is left in its answer (R27). -/
theorem transact_eq_of_any_state (i : Instr) (s t : State) : transact i s = transact i t := by
  have hsignals : (s.present i).driveY (bitcast i.operand) = (t.present i).driveY (bitcast i.operand) := by
    apply State.ext_signals <;> simp
  rw [transact_eq, transact_eq, hsignals]

/-- Settles O8: a step's next state is a fixed point of `step`, and a transaction answers from any state alike, so
from the state after the discarded transaction too. -/
theorem evaluationIsIdempotentAndDiscardable : Obligations.EvaluationIsIdempotentAndDiscardable :=
  ⟨fun k s => ⟨_, step_eq s, core_run_succ_of_step (step_eq s) k, step_frame (step_eq s)⟩,
    fun _ j s s' _ => transact_eq_of_any_state j s' s⟩

end Sys2Proof.Machine
end

section
/-! PROOFS. 30_encoding.md: every transaction word decodes, and selects one row of the opcode map. -/

namespace Sys2Proof

/-- Decoding loses no bit of the word (R35, R37). -/
@[simp] theorem encode_decode (t : TransactionWord) : encode (decode t) = t := by
  rw [encode, decode, Op.op_apply, Op.operand_apply, Op.selector_ofSelector, selectorField_append_operandField]

/-- Bit 32 alone chooses the operation (R36, R37). -/
theorem decode_eq_apply_getLsbD (t : TransactionWord) :
    decode t = (Op.ofSelector (BitVec.ofBool (t.getLsbD 32))).apply (operandField t) := by
  rw [decode, selectorField_eq_ofBool]

/-- The law of each instruction's row, for every instruction. -/
theorem Laws.RowOfWord.statement (i : Instr) : Laws.RowOfWord.Statement i := by
  cases i with
  | f2i value => exact Laws.RowOfWord.f2i value
  | i2f bits => exact Laws.RowOfWord.i2f bits

/-- An encoded instruction selects its own operation's row of the opcode map and no other. -/
theorem selectedRows_encode (i : Instr) :
    (opcodeTable.filter fun r => r.selectedBy (encode i)).map OpcodeRow.op = [i.op] := by
  obtain ⟨_, hrows, _⟩ := Laws.RowOfWord.statement i
  exact hrows

/-- Settles O14: bit 32 fixes what the decoder applies to the low 32 bits; and every word is the encoding of what it
decodes to, so it selects that instruction's row alone. -/
theorem everyWordSelectsExactlyOneRow : Obligations.EveryWordSelectsExactlyOneRow := by
  intro t
  refine ⟨fun hbit => ?_, fun hbit => ?_, ?_⟩
  · rw [decode_eq_apply_getLsbD, hbit]
    rfl
  · rw [decode_eq_apply_getLsbD, hbit]
    rfl
  · have hrows := selectedRows_encode (decode t)
    rwa [encode_decode] at hrows

end Sys2Proof
end

section
/-! PROOFS. 40_bitcast.md section 3: the datapath is the identity, so both operations, a transaction and a step answer
with the operand's own bits on `y`. -/

namespace Sys2Proof.Machine

/-- `F2I` as a function keeps the 32 bits (R53, R55). -/
@[simp] theorem floatToIntBits_eq (x : F32) : floatToIntBits x = ⟨x.bits⟩ :=
  congrArg I32.mk (bitcast_eq x.bits)

/-- `I2F` as a function keeps the 32 bits (R54, R55). -/
@[simp] theorem intBitsToFloat_eq (v : I32) : intBitsToFloat v = ⟨v.bits⟩ :=
  congrArg F32.mk (bitcast_eq v.bits)

theorem exec_eq_driveY_operand (i : Instr) (s : State) : exec i s = .next (s.driveY i.operand) := by
  rw [exec_eq, bitcast_eq]

theorem transact_eq_driveY_operand (i : Instr) (s : State) :
    transact i s = .next ((s.present i).driveY i.operand) := by
  rw [transact_eq, bitcast_eq]

theorem step_eq_driveY_a (s : State) : step s = .next (s.driveY s.a) := by
  rw [step_eq, bitcast_eq]

/-- Either operation, on any vector and from any state, answers with that vector on `y` (R55). -/
theorem transact_apply_shows_operand (o : Op) (v : Word) (s : State) :
    ∃ s', transact (o.apply v) s = .next s' ∧ s'.y = v :=
  ⟨_, transact_eq_driveY_operand (o.apply v) s, Op.operand_apply o v⟩

/-- Settles O39: a step drives `a` on `y`, whatever stood on `op` and `y`. -/
theorem outputDependsOnTheOperandAlone : Obligations.OutputDependsOnTheOperandAlone :=
  fun s t ha => ⟨_, _, step_eq_driveY_a s, step_eq_driveY_a t, ha⟩

end Sys2Proof.Machine
end

section
/-! PROOFS. 40_bitcast.md section 3 and 60_exceptions.md: every transaction completes and nothing is signalled. -/

namespace Sys2Proof.Machine

/-- A run of any length completes: every step of it goes on (R62, R76). -/
theorem core_run_completes (k : Nat) (s : State) : Completes (Sys2Proof.core.run k s) = true := by
  induction k generalizing s with
  | zero => rfl
  | succ k ih =>
    rw [core_run_succ]
    exact ih _

/-- Settles O11: the type of faults is empty, and `exec`, `transact` and `step` each have a next state for an answer. -/
theorem everyTransactionCompletes : Obligations.EveryTransactionCompletes :=
  ⟨nofun, fun i s => ⟨_, exec_eq i s⟩, fun i s => ⟨_, transact_eq i s⟩, fun s => ⟨_, step_eq s⟩,
    core_run_completes⟩

/-- Settles O12: the next state is `driveY` of the state before, and the vector on `y` is the operand, so the quiet bit
of a NaN is the operand's. -/
theorem nothingIsSignalled : Obligations.NothingIsSignalled := by
  refine ⟨exec_eq_driveY_operand, transact_eq_driveY_operand, fun _ _ => State.ext_signals, fun o v s => ?_⟩
  obtain ⟨s', hnext, hy⟩ := transact_apply_shows_operand o v s
  rw [← hy] at hnext ⊢
  exact ⟨s', hnext, rfl, rfl⟩

end Sys2Proof.Machine
end

section
/-! PROOFS. 40_bitcast.md sections 1 and 2: each operation whole. -/

namespace Sys2Proof

/-- Encoding loses nothing of the instruction (R35, R37). -/
@[simp] theorem decode_encode (i : Instr) : decode (encode i) = i := by
  rw [encode, decode, selectorField_append, operandField_append, Op.ofSelector_selector, Instr.apply_op_operand]

/-- The unsigned reading of a pattern is its three fields at their places (R43, R50). -/
theorem F32.uint_bits_eq_fields (x : F32) :
    uint x.bits = x.sign.toNat * 2 ^ 31 + x.exponent.toNat * 2 ^ 23 + x.fraction.toNat := by
  have hlt := x.bits.isLt
  simp only [uint, F32.sign, F32.exponent, F32.fraction, BitVec.extractLsb'_toNat, Nat.shiftRight_eq_div_pow]
  omega

end Sys2Proof

namespace Sys2Proof.Machine

/-- Settles O30: `F2I` answers with the operand's bits on `y` and the frame of `exec`; the readings are then of the
operand, and those of the corner cases are computed. -/
theorem f2IYieldsTheOperandBits : Obligations.F2IYieldsTheOperandBits := by
  refine ⟨fun value s => ⟨rfl, decode_encode (.f2i value), rfl, ?_⟩, fun c hc s => ?_⟩
  · have hnext := exec_eq_driveY_operand (.f2i value) s
    obtain ⟨hop, ha, hblock⟩ := exec_frame hnext
    exact ⟨_, hnext, hop, ha, hblock, fun _ _ => rfl, rfl, rfl, value.uint_bits_eq_fields⟩
  · have hreadings : sint c.1 = c.2.1 ∧ uint c.1 = c.2.2 := by
      revert c
      decide
    exact ⟨_, exec_eq_driveY_operand (.f2i ⟨c.1⟩) s, rfl, hreadings⟩

/-- Settles O31: `I2F` answers with the operand's bits on `y` and the frame of `exec`; the fields are then the operand's
bits, and those of the corner cases, whose operand is the vector of the listed integer, are computed. -/
theorem i2FYieldsTheOperandBits : Obligations.I2FYieldsTheOperandBits := by
  refine ⟨fun bits s => ⟨rfl, decode_encode (.i2f bits), rfl, ?_⟩, fun c hc s => ?_⟩
  · have hnext := exec_eq_driveY_operand (.i2f bits) s
    obtain ⟨hop, ha, hblock⟩ := exec_frame hnext
    exact ⟨_, hnext, hop, ha, hblock, fun _ _ => rfl, rfl, rfl, rfl⟩
  · have hpattern : bv32 c.1 = c.2.1 := by
      revert c
      decide
    have hreadings : (F32.mk c.2.1).classify = c.2.2.1 ∧ (F32.mk c.2.1).sign = c.2.2.2.1 ∧
        (F32.mk c.2.1).fraction = c.2.2.2.2 := by
      revert c
      decide
    rw [hpattern]
    exact ⟨_, exec_eq_driveY_operand (.i2f ⟨c.2.1⟩) s, rfl, hreadings⟩

end Sys2Proof.Machine
end

section
/-! PROOFS. 40_bitcast.md section 3: the round trips. -/

namespace Sys2Proof.Machine

theorem intBitsToFloat_floatToIntBits (x : F32) : intBitsToFloat (floatToIntBits x) = x := by
  rw [floatToIntBits_eq, intBitsToFloat_eq]

theorem floatToIntBits_intBitsToFloat (v : I32) : floatToIntBits (intBitsToFloat v) = v := by
  rw [intBitsToFloat_eq, floatToIntBits_eq]

/-- Two transactions in a row, the second on the `y` of the first, end with the first one's operand on `y`, whichever the
operations. -/
theorem transact_chain_shows_operand (o o' : Op) (v : Word) (s : State) :
    ∃ s' s'', transact (o.apply v) s = .next s' ∧ transact (o'.apply s'.y) s' = .next s'' ∧ s''.y = v := by
  obtain ⟨s', hnext, hy⟩ := transact_apply_shows_operand o v s
  obtain ⟨s'', hnext', hy'⟩ := transact_apply_shows_operand o' s'.y s'
  exact ⟨s', s'', hnext, hnext', hy'.trans hy⟩

/-- Settles O33: the functions undo each other, and so do the two transactions. -/
theorem floatIntFloatRoundTrips : Obligations.FloatIntFloatRoundTrips := by
  intro x s
  obtain ⟨s', s'', hthere, hback, hy⟩ := transact_chain_shows_operand .f2i .i2f x.bits s
  exact ⟨intBitsToFloat_floatToIntBits x, s', s'', hthere, hback, congrArg F32.mk hy⟩

/-- Settles O34: the functions undo each other, and so do the two transactions. -/
theorem intFloatIntRoundTrips : Obligations.IntFloatIntRoundTrips := by
  intro v s
  obtain ⟨s', s'', hthere, hback, hy⟩ := transact_chain_shows_operand .i2f .f2i v.bits s
  exact ⟨floatToIntBits_intBitsToFloat v, s', s'', hthere, hback, congrArg I32.mk hy⟩

end Sys2Proof.Machine
end

section
/-! PROOFS. 40_bitcast.md section 3: NaNs, zeros and every other value pass as they are. -/

namespace Sys2Proof.Machine

/-- `F2I` keeps distinct patterns distinct, because `I2F` gives each back. -/
theorem floatToIntBits_injective : Function.Injective floatToIntBits :=
  Function.LeftInverse.injective intBitsToFloat_floatToIntBits

/-- Settles O36: `y` shows the NaN's own 32 bits, so its fields and quiet bit are the operand's; and `F2I` is injective. -/
theorem naNPatternsAreNotCanonicalised : Obligations.NaNPatternsAreNotCanonicalised := by
  refine ⟨fun o v s hnan => ?_, fun x x' _ _ hne => ?_⟩
  · obtain ⟨s', hnext, hy⟩ := transact_apply_shows_operand o v s
    rw [← hy] at hnext hnan ⊢
    exact ⟨s', hnext, hnan, rfl, rfl, rfl, rfl, rfl⟩
  · exact ⟨floatToIntBits_injective.ne hne, intBitsToFloat_floatToIntBits x, intBitsToFloat_floatToIntBits x'⟩

/-- Settles O38: `y` shows the operand's own 32 bits, so its class, value and sign are the operand's. -/
theorem noValueIsAltered : Obligations.NoValueIsAltered := by
  intro o v s
  obtain ⟨s', hnext, hy⟩ := transact_apply_shows_operand o v s
  refine ⟨s', hnext, ?_, ?_, ?_, hy⟩ <;> rw [hy]

/-- The two zeros compare equal as numbers (R46). -/
theorem numericEq_zeros : F32.numericEq ⟨0x00000000#32⟩ ⟨0x80000000#32⟩ = true := by decide

/-- Settles O37: both casts keep the bits of either zero, and the integer readings tell them apart. -/
theorem signOfZeroIsPreserved : Obligations.SignOfZeroIsPreserved := by
  unfold Obligations.SignOfZeroIsPreserved
  simp only [floatToIntBits_eq, intBitsToFloat_eq, numericEq_zeros]
  decide

end Sys2Proof.Machine
end

section
/-! PROOFS. 40_bitcast.md section 3: bit equality and numeric equality. -/

namespace Sys2Proof

/-- A Float32 is its 32 bits and nothing else (R43, R66). -/
theorem F32.eq_iff_bits_eq (x y : F32) : x = y ↔ x.bits = y.bits :=
  ⟨congrArg F32.bits, congrArg F32.mk⟩

/-- An Int32 is its 32 bits and nothing else (R47, R66). -/
theorem I32.eq_iff_bits_eq (u v : I32) : u = v ↔ u.bits = v.bits :=
  ⟨congrArg I32.bits, congrArg I32.mk⟩

theorem F32.value_of_nan {x : F32} (hnan : x.classify = .nan) : x.value = .nan := by
  simp only [F32.value, hnan]

/-- A NaN is numerically unequal to everything, itself included (R46). -/
theorem F32.numericEq_of_nan_left {x : F32} (hnan : x.classify = .nan) (y : F32) : F32.numericEq x y = false := by
  simp only [F32.numericEq, F32.value_of_nan hnan]

end Sys2Proof

namespace Sys2Proof.Machine

/-- Settles O40: a Float32 and an Int32 are their 32 bits; numeric equality fails at every NaN and joins the two zeros,
whose sign bits differ. -/
theorem equalityIsOfAllBits : Obligations.EqualityIsOfAllBits := by
  refine ⟨fun x y => ?_, fun u v => ?_, fun x hnan => F32.numericEq_of_nan_left hnan x, numericEq_zeros, by decide⟩
  · rw [F32.eq_iff_bits_eq, BitVec.eq_of_getLsbD_eq_iff]
  · rw [I32.eq_iff_bits_eq, BitVec.eq_of_getLsbD_eq_iff]

end Sys2Proof.Machine
end

section
/-! PROOFS. 10_state.md, 20_memory.md section 1 and 70_reset_and_hazards.md: what every step does, on any inputs. -/

namespace Sys2Proof.Machine

/-- Settles O32: the wires of the datapath carry `a` to `y` whichever row the selector names. -/
theorem datapathIsTheIdentity : Obligations.DatapathIsTheIdentity := step_eq_driveY_a

/-- A step settles the output, whatever `y` showed before (R88): `y` is driven with `a`, and `a` stands. -/
theorem step_settles {s s' : State} (h : step s = .next s') : s'.Settled := by
  rw [step_eq_driveY_a] at h
  cases h
  exact State.driveY_y s.a s

/-- Settles O6: a step has a next state from every state, and that state is settled. -/
theorem everyStepSettlesTheOutput : Obligations.EveryStepSettlesTheOutput :=
  fun s => ⟨⟨_, step_eq s⟩, fun _ => step_settles⟩

/-- Settles O2: the block's own state is the one-point type. -/
theorem signalsAreTheWholeState : Obligations.SignalsAreTheWholeState :=
  fun _ _ => State.ext_signals

/-- Settles O5: all three signals read 0 at reset. -/
theorem resetStateShowsItsOperand : Obligations.ResetStateShowsItsOperand := ⟨rfl, rfl, rfl⟩

/-- On wires that may be unknown the datapath is the identity too (R19). -/
@[simp] theorem bitcastWires_eq (w : Wires) : bitcastWires w = w := Vector.ofFn_getElem

/-- Settles O4: a step completes with `y = a` on any inputs, and both the datapath on words and its extension to unknown
wires are identities. -/
theorem everyInputCombinationIsLegal : Obligations.EveryInputCombinationIsLegal := by
  refine ⟨fun o v s => ⟨_, step_eq_driveY_a _, rfl, rfl, rfl⟩, fun w i => ?_, fun v => ?_⟩
  · rw [bitcastWires_eq]
  · rw [bitcastWires_eq, bitcast_eq]

/-- A vector is its four byte lanes, lane 3 first (R23). -/
theorem lanes_append (v : Word) : lane 3 v ++ (lane 2 v ++ (lane 1 v ++ lane 0 v)) = v := by
  simp only [lane]
  rw [BitVec.extractLsb'_append_extractLsb'_eq_extractLsb' (by rfl),
    BitVec.extractLsb'_append_extractLsb'_eq_extractLsb' (by rfl),
    BitVec.extractLsb'_append_extractLsb'_eq_extractLsb' (by rfl)]
  exact BitVec.extractLsb'_eq_self

/-- The lowest lane lies within the fraction (R23, R43). -/
theorem lane_zero_eq_fraction (v : Word) : lane 0 v = (F32.mk v).fraction.extractLsb' 0 8 :=
  (BitVec.extractLsb'_extractLsb'_of_le (by decide)).symm

/-- The highest lane is the sign and the upper seven bits of the exponent (R23, R43). -/
theorem lane_three_eq_sign_append_exponent (v : Word) :
    lane 3 v = (F32.mk v).sign ++ (F32.mk v).exponent.extractLsb' 1 7 := by
  have hexponent : (F32.mk v).exponent.extractLsb' 1 7 = v.extractLsb' 24 7 := by
    apply BitVec.eq_of_getLsbD_eq
    intro j hj
    have hlt : 1 + j < 8 := by omega
    have hplace : 23 + (1 + j) = 24 + j := by omega
    simp [F32.exponent, hlt, hplace]
  rw [hexponent, F32.sign, BitVec.extractLsb'_append_extractLsb'_eq_extractLsb' (by rfl)]
  rfl

/-- Settles O7: `y` is the operand itself, so its lanes are the operand's, and those are its bits and fields. -/
theorem byteLanesPassStraightThrough : Obligations.ByteLanesPassStraightThrough :=
  fun s => ⟨_, step_eq_driveY_a s, fun _ _ => rfl, (lanes_append s.a).symm, lane_zero_eq_fraction s.a,
    lane_three_eq_sign_append_exponent s.a⟩

/-- Settles O17: by definition a step runs the presented word, and presenting puts the encoded word on the inputs. -/
theorem stepRunsThePresentedTransaction : Obligations.StepRunsThePresentedTransaction := by
  refine ⟨fun s i hi => ?_, fun s i => ⟨?_, State.present_y i s, ?_⟩⟩
  · rw [step, State.presentedWord, hi]
  · exact State.presentedWord_presentWord (encode i) s
  · rw [step, State.present, State.presentedWord_presentWord, decode_encode]

/-- Settles O18: the placed word stands on the inputs, so the step decodes it; its bits are the number's,
below `nbits`. -/
theorem placedTableWordRunsNext : Obligations.PlacedTableWordRunsNext := by
  intro s nbits w
  refine ⟨decode (tableWord nbits w), rfl, ?_, rfl, fun j hj => ?_, ?_⟩
  · rw [step, State.withFetchWord, State.presentedWord_presentWord]
  · have hword : j < 33 := by omega
    rw [State.withFetchWord, State.presentWord_a, operandField, BitVec.getLsbD_extractLsb', getLsbD_tableWord]
    simp [hj, hword]
  · rw [State.withFetchWord, State.presentWord_op, selectorField_eq_ofBool, getLsbD_tableWord]
    simp

end Sys2Proof.Machine
end

section
/-! PROOFS. 30_encoding.md sections 1 to 3: decoding and encoding are inverse to each other. -/

namespace Sys2Proof

/-- The word of `F2I` holds the operand, and 0 at bit 32 (R35, R36). -/
theorem getLsbD_encode_f2i (value : F32) (j : Nat) :
    (encode (.f2i value)).getLsbD j = (decide (j < 32) && value.bits.getLsbD j) := by
  rw [encode, getLsbD_transactionWord]
  by_cases h : j < 32 <;> simp [h, Instr.operand, Instr.op, Op.selector]

/-- The word of `I2F` holds the operand, and 1 at bit 32 (R35, R36). -/
theorem getLsbD_encode_i2f (bits : I32) (j : Nat) :
    (encode (.i2f bits)).getLsbD j = (decide (j = 32) || decide (j < 32) && bits.bits.getLsbD j) := by
  rw [encode, getLsbD_transactionWord]
  by_cases h : j < 32
  · have hne : j ≠ 32 := by omega
    simp [h, hne, Instr.operand]
  · have hiff : j - 32 = 0 ↔ j = 32 := by omega
    simp [h, hiff, Instr.op, Op.selector]

/-- Every instruction is well-formed (R19, R49). -/
theorem Instr.wellFormed_eq_true (i : Instr) : i.wellFormed = true := by cases i <;> rfl

/-- Settles O15: both round trips, which `decode_encode` and `encode_decode` state, and the places of the bits. -/
theorem decodeAndEncodeAreInverse : Obligations.DecodeAndEncodeAreInverse :=
  ⟨fun i => ⟨i.wellFormed_eq_true, decode_encode i⟩, encode_decode, getLsbD_encode_f2i, getLsbD_encode_i2f⟩

/-- Settles O16: four fixed words, one of them with every operand bit set and one with none. -/
theorem writtenOutWordsDecode : Obligations.WrittenOutWordsDecode := by
  unfold Obligations.WrittenOutWordsDecode
  decide

end Sys2Proof
end

section
/-! PROOFS. 10_state.md section 1 and 20_memory.md section 2: a bank of instances, served in any order. -/

namespace Sys2Proof.Machine

/-- All a transaction on block `k` of a bank can do: there is such a block, it alone is replaced, and the answer is the
operand (R31, R55). -/
theorem Bank.transactOn_cases {k : Nat} {i : Instr} {b b' : Bank} {y : Word}
    (h : Bank.transactOn k i b = some (b', y)) :
    ∃ s, b[k]? = some s ∧ b' = b.set k ((s.present i).driveY i.operand) ∧ y = i.operand := by
  cases hs : b[k]? with
  | none => simp [Bank.transactOn, hs] at h
  | some s =>
    rw [Bank.transactOn_eq k i b s hs, bitcast_eq] at h
    cases h
    exact ⟨s, rfl, rfl, rfl⟩

/-- A block that is in the bank answers a transaction with its operand. -/
theorem Bank.transactOn_of_lt {k : Nat} {b : Bank} (hk : k < b.length) (i : Instr) :
    ∃ c, Bank.transactOn k i b = some (c, i.operand) := by
  have h := Bank.transactOn_eq k i b b[k] (List.getElem?_eq_getElem hk)
  rw [bitcast_eq] at h
  exact ⟨_, h⟩

/-- A schedule goes on with the bank its first transaction leaves. -/
theorem Bank.serve_cons_of_transactOn {k : Nat} {i : Instr} {b c : Bank} {y : Word}
    (h : Bank.transactOn k i b = some (c, y)) (rest : List (Nat × Instr)) :
    Bank.serve ((k, i) :: rest) b = (Bank.serve rest c).map fun r => (r.1, y :: r.2) := by
  simp only [Bank.serve, h]
  cases Bank.serve rest c <;> rfl

/-- A schedule that is served was served at its first transaction and then from the bank that one left. -/
theorem Bank.serve_cons_cases {k : Nat} {i : Instr} {rest : List (Nat × Instr)} {b d : Bank} {zs : List Word}
    (h : Bank.serve ((k, i) :: rest) b = some (d, zs)) :
    ∃ c y ys, Bank.transactOn k i b = some (c, y) ∧ Bank.serve rest c = some (d, ys) ∧ zs = y :: ys := by
  cases hfirst : Bank.transactOn k i b with
  | none => simp [Bank.serve, hfirst] at h
  | some r =>
    obtain ⟨c, y⟩ := r
    rw [Bank.serve_cons_of_transactOn hfirst, Option.map_eq_some_iff] at h
    obtain ⟨⟨d', ys⟩, hrest, heq⟩ := h
    cases heq
    exact ⟨c, y, ys, rfl, hrest, rfl⟩

/-- A schedule keeps the number of instances. -/
theorem Bank.serve_length {sched : List (Nat × Instr)} {b d : Bank} {ys : List Word}
    (h : Bank.serve sched b = some (d, ys)) : d.length = b.length := by
  induction sched generalizing b ys with
  | nil =>
    cases h
    rfl
  | cons e rest ih =>
    obtain ⟨c, y, ys', hfirst, hrest, _⟩ := Bank.serve_cons_cases h
    exact (ih hrest).trans (Bank.transactOn_length hfirst)

/-- A schedule on instances that exist is served whole, and each answer is its own transaction's operand (R30). -/
theorem Bank.serve_of_lt {sched : List (Nat × Instr)} {b : Bank} (h : ∀ e ∈ sched, e.1 < b.length) :
    ∃ d, Bank.serve sched b = some (d, sched.map fun e => e.2.operand) := by
  induction sched generalizing b with
  | nil => exact ⟨b, rfl⟩
  | cons e rest ih =>
    obtain ⟨he, hrest⟩ := List.forall_mem_cons.mp h
    obtain ⟨c, hfirst⟩ := Bank.transactOn_of_lt he e.2
    rw [← Bank.transactOn_length hfirst] at hrest
    obtain ⟨d, hserve⟩ := ih hrest
    exact ⟨d, by rw [Bank.serve_cons_of_transactOn hfirst, hserve]; rfl⟩

/-- Whatever bank a schedule is served on, each answer is its own transaction's operand (R30). -/
theorem Bank.serve_answers {sched : List (Nat × Instr)} {b d : Bank} {ys : List Word}
    (h : Bank.serve sched b = some (d, ys)) : ys = (sched.map Prod.snd).map Instr.operand := by
  induction sched generalizing b ys with
  | nil =>
    cases h
    rfl
  | cons e rest ih =>
    obtain ⟨c, y, ys', hfirst, hrest, rfl⟩ := Bank.serve_cons_cases h
    obtain ⟨_, _, _, rfl⟩ := Bank.transactOn_cases hfirst
    rw [ih hrest]
    rfl

/-- Settles O1: the bank after the schedule has as many blocks as the first one, and each of them answers with the
transaction's operand. -/
theorem earlierTransactionsLeaveNoTrace : Obligations.EarlierTransactionsLeaveNoTrace := by
  refine ⟨fun _ _ => rfl, fun sched b b' ys i k m hserve hk hm => ?_⟩
  rw [← Bank.serve_length hserve] at hk
  obtain ⟨c', hlater⟩ := Bank.transactOn_of_lt hk i
  obtain ⟨c, hfirst⟩ := Bank.transactOn_of_lt hm i
  exact ⟨c, c', i.operand, hlater, hfirst⟩

/-- Settles O9: the one answer function is the operand; a schedule's answers are a map over its transactions, and
mapping respects permutation. -/
theorem interleavingsAnswerAlike : Obligations.InterleavingsAnswerAlike := by
  refine ⟨Instr.operand, fun sched b => Bank.serve_of_lt, fun sched sched' b b' c c' ys ys' hperm h h' => ?_⟩
  rw [Bank.serve_answers h, Bank.serve_answers h', ← List.map_prod_left_eq_zip, ← List.map_prod_left_eq_zip]
  exact hperm.map _

/-- A transaction leaves every other block of the bank as it was (R31). -/
theorem Bank.transactOn_getElem?_ne {k j : Nat} {i : Instr} {b d : Bank} {y : Word}
    (h : Bank.transactOn k i b = some (d, y)) (hne : j ≠ k) : d[j]? = b[j]? := by
  obtain ⟨s, _, rfl, _⟩ := Bank.transactOn_cases h
  exact List.getElem?_set_ne hne.symm

/-- Two transactions on different instances, served in this order, replace the two instances. -/
theorem Bank.serve_pair {k j : Nat} {b : Bank} {s t : State} (hne : k ≠ j) (hs : b[k]? = some s) (ht : b[j]? = some t)
    (i i' : Instr) :
    Bank.serve [(k, i), (j, i')] b =
      some ((b.set k ((s.present i).driveY (bitcast i.operand))).set j ((t.present i').driveY (bitcast i'.operand)),
        [bitcast i.operand, bitcast i'.operand]) := by
  have hfirst := Bank.transactOn_eq k i b s hs
  have hsecond := Bank.transactOn_eq j i' _ t ((Bank.transactOn_getElem?_ne hfirst hne.symm).trans ht)
  rw [Bank.serve_cons_of_transactOn hfirst, Bank.serve_cons_of_transactOn hsecond]
  rfl

/-- Settles O10: a transaction replaces its own block alone, replacing two different ones commutes, and the length of
the bank stays. -/
theorem instancesShareNothing : Obligations.InstancesShareNothing := by
  refine ⟨fun k j i b d y h hne => ⟨Bank.transactOn_length h, Bank.transactOn_getElem?_ne h hne⟩,
    fun k j i i' b hne hk hj => ?_, fun sched d ys h => ?_⟩
  · have hs := List.getElem?_eq_getElem hk
    have ht := List.getElem?_eq_getElem hj
    refine ⟨_, _, _, Bank.serve_pair hne hs ht i i', ?_⟩
    rw [Bank.serve_pair hne.symm ht hs i' i, List.set_comm _ _ hne]
  · rw [Bank.serve_length h, Bank.reset, List.length_replicate]

end Sys2Proof.Machine
end

section
/-! PROOFS. 30_encoding.md section 5 and 70_reset_and_hazards.md section 3: what the check of a netlist checks. -/

namespace Sys2Proof

/-- A line before place `i` of the netlist binds the name `n`. -/
def Netlist.BindsBefore (p : Netlist) (i n : Nat) : Prop := ∃ (j : Nat) (m : Line), j < i ∧ p[j]? = some m ∧ m.dst = n

theorem Netlist.not_bindsBefore_zero (p : Netlist) (n : Nat) : ¬ Netlist.BindsBefore p 0 n := by
  rintro ⟨j, _, hj, _⟩
  exact Nat.not_lt_zero j hj

/-- What is bound before a place of a longer netlist: its first line's name, or what the rest binds before. -/
theorem Netlist.bindsBefore_cons_succ (l : Line) (p : Netlist) (i n : Nat) :
    Netlist.BindsBefore (l :: p) (i + 1) n ↔ n = l.dst ∨ Netlist.BindsBefore p i n := by
  constructor
  · rintro ⟨j, m, hj, hm, rfl⟩
    cases j with
    | zero =>
      cases hm
      exact .inl rfl
    | succ j => exact .inr ⟨j, m, Nat.lt_of_succ_lt_succ hj, hm, rfl⟩
  · rintro (rfl | ⟨j, m, hj, hm, rfl⟩)
    · exact ⟨0, l, Nat.succ_pos i, rfl, rfl⟩
    · exact ⟨j + 1, m, Nat.succ_lt_succ hj, hm, rfl⟩

/-- After lines that bound the names `bound`, each name the netlist uses is one of those or an earlier line's. -/
def Netlist.UsesEarlier (bound : List Nat) (p : Netlist) : Prop :=
  ∀ (i : Nat) (l : Line) (n : Nat), p[i]? = some l → l.src = .name n → n ∈ bound ∨ Netlist.BindsBefore p i n

/-- The first line uses names of `bound` alone, and its own name is then bound for the rest. -/
theorem Netlist.usesEarlier_cons_iff (bound : List Nat) (l : Line) (ls : Netlist) :
    Netlist.UsesEarlier bound (l :: ls) ↔
      (∀ n, l.src = .name n → n ∈ bound) ∧ Netlist.UsesEarlier (l.dst :: bound) ls := by
  have hsucc : ∀ i n, n ∈ bound ∨ Netlist.BindsBefore (l :: ls) (i + 1) n ↔
      n ∈ l.dst :: bound ∨ Netlist.BindsBefore ls i n := by
    intro i n
    rw [Netlist.bindsBefore_cons_succ, List.mem_cons]
    tauto
  constructor
  · intro h
    refine ⟨fun n hn => ?_, fun i l' n hl' hn => (hsucc i n).mp (h (i + 1) l' n hl' hn)⟩
    exact (h 0 l n rfl hn).resolve_right (Netlist.not_bindsBefore_zero _ n)
  · rintro ⟨hfirst, hrest⟩ i l' n hl' hn
    cases i with
    | zero =>
      cases hl'
      exact .inl (hfirst n hn)
    | succ i => exact (hsucc i n).mpr (hrest i l' n hl' hn)

theorem Src.boundIn_iff (bound : List Nat) (s : Src) : s.boundIn bound = true ↔ ∀ n, s = .name n → n ∈ bound := by
  cases s <;> simp [Src.boundIn]

/-- One line of the check. -/
theorem Netlist.wellFormedFrom_cons_iff (bound : List Nat) (l : Line) (ls : Netlist) :
    Netlist.wellFormedFrom bound (l :: ls) = true ↔
      l.dst ∉ bound ∧ (∀ n, l.src = .name n → n ∈ bound) ∧ Netlist.wellFormedFrom (l.dst :: bound) ls = true := by
  simp [Netlist.wellFormedFrom, Src.boundIn_iff, and_assoc]

/-- Names are bound once: none of `bound`, and none twice. -/
theorem Netlist.freshNames_cons_iff (bound : List Nat) (l : Line) (ls : Netlist) :
    (∀ m ∈ l :: ls, m.dst ∉ bound) ∧ ((l :: ls).map Line.dst).Nodup ↔
      l.dst ∉ bound ∧ (∀ m ∈ ls, m.dst ∉ l.dst :: bound) ∧ (ls.map Line.dst).Nodup := by
  rw [List.forall_mem_cons, List.map_cons, List.nodup_cons]
  simp only [List.mem_map, List.mem_cons, not_or, forall_and, not_exists, not_and]
  tauto

/-- The check after lines that bound the names `bound`. -/
theorem Netlist.wellFormedFrom_iff (bound : List Nat) (p : Netlist) :
    Netlist.wellFormedFrom bound p = true ↔
      ((∀ l ∈ p, l.dst ∉ bound) ∧ (p.map Line.dst).Nodup) ∧ Netlist.UsesEarlier bound p := by
  induction p generalizing bound with
  | nil => simp [Netlist.wellFormedFrom, Netlist.UsesEarlier]
  | cons l ls ih =>
    rw [Netlist.wellFormedFrom_cons_iff, ih, Netlist.freshNames_cons_iff, Netlist.usesEarlier_cons_iff]
    tauto

/-- Settles O20: the check from no bound names. -/
theorem wellFormedNetlistsFeedForward : Obligations.WellFormedNetlistsFeedForward := by
  intro p
  rw [Netlist.wellFormed, Netlist.wellFormedFrom_iff]
  simp [Netlist.UsesEarlier, Netlist.BindsBefore]

/-- A line that names its own result would have to stand after another line of the same name (R91). -/
theorem Netlist.wellFormed_of_self_use {p : Netlist} {l : Line} (hl : l ∈ p) (hself : l.src = .name l.dst) :
    Netlist.wellFormed p = false := by
  rw [← Bool.not_eq_true, wellFormedNetlistsFeedForward p]
  rintro ⟨hnodup, huses⟩
  obtain ⟨i, hi⟩ := List.mem_iff_getElem?.mp hl
  obtain ⟨j, m, hj, hm, hdst⟩ := huses i l l.dst hi hself
  have hsame : (p.map Line.dst)[j]? = (p.map Line.dst)[i]? := by
    rw [List.getElem?_map, List.getElem?_map, hm, hi, Option.map_some, Option.map_some, hdst]
  have hlen : j < (p.map Line.dst).length := by
    rw [List.length_map]
    exact (List.getElem?_eq_some_iff.mp hm).1
  exact hj.ne ((List.getElem?_inj hlen hnodup).mp hsame)

/-- Settles O13: a step from a state whose `y` is `a` leaves it as it is; and the check refuses a line that uses its own
name. -/
theorem feedbackHoldsAnyValueAndIsRefused : Obligations.FeedbackHoldsAnyValueAndIsRefused :=
  ⟨fun _ _ _ => Machine.step_eq_driveY_a _, fun _ _ _ hl => Netlist.wellFormed_of_self_use hl rfl⟩

end Sys2Proof
end

section
/-! PROOFS. 30_encoding.md section 5: running a well-formed netlist. -/

namespace Sys2Proof.Machine

/-- A line whose source has a value binds its name to that value, and the run goes on (R42, R55). -/
theorem Netlist.run_cons_of_srcBits {env : Bindings} {l : Line} {a : Word} (h : srcBits env l.src = some a)
    (ls : Netlist) (s : State) :
    Netlist.run (l :: ls) s env =
      Netlist.run ls ((s.present (l.op.apply a)).driveY a) ((l.dst, a) :: env) := by
  simp only [Netlist.run, h, transact_eq_driveY_operand, Op.operand_apply, State.driveY_y]

/-- Every value bound is the literal at which the name's chain begins. -/
def Bindings.Sound (p : Netlist) (env : Bindings) : Prop := ∀ n w, env.lookup n = some w → StartsAt p n w

/-- Every name of `names` has a value. -/
def Bindings.Covers (env : Bindings) (names : List Nat) : Prop := ∀ n ∈ names, ∃ w, env.lookup n = some w

theorem Bindings.lookup_cons (n : Nat) (w : Word) (env : Bindings) (m : Nat) :
    List.lookup m ((n, w) :: env) = if m = n then some w else env.lookup m := by
  rw [List.lookup_cons]
  by_cases h : m = n
  · simp [h]
  · rw [beq_false_of_ne h, if_neg h]

/-- A new binding keeps a sound environment sound if its own value begins its chain. -/
theorem Bindings.Sound.cons {p : Netlist} {env : Bindings} (h : Bindings.Sound p env) {n : Nat} {w : Word}
    (hw : StartsAt p n w) : Bindings.Sound p ((n, w) :: env) := by
  intro m v hv
  rw [Bindings.lookup_cons] at hv
  split at hv
  · next heq =>
    cases hv
    exact heq ▸ hw
  · exact h m v hv

theorem Bindings.Covers.cons {env : Bindings} {names : List Nat} (h : Bindings.Covers env names) (n : Nat) (w : Word) :
    Bindings.Covers ((n, w) :: env) (n :: names) := by
  intro m hm
  rw [Bindings.lookup_cons]
  split
  · exact ⟨w, rfl⟩
  · next hne => exact h m ((List.mem_cons.mp hm).resolve_left hne)

/-- What a source puts on the wires begins the chain of the line's name. -/
theorem StartsAt.of_srcBits {p : Netlist} {env : Bindings} (h : Bindings.Sound p env) {l : Line} (hl : l ∈ p) {a : Word}
    (ha : srcBits env l.src = some a) : StartsAt p l.dst a := by
  cases hsrc : l.src with
  | literal w =>
    rw [hsrc] at ha
    cases ha
    exact .literal hl hsrc
  | name n =>
    rw [hsrc] at ha
    exact .wire hl hsrc (h n a ha)

/-- A source has a value where the names it may use have one. -/
theorem srcBits_of_covers {env : Bindings} {bound : List Nat} (h : Bindings.Covers env bound) {s : Src}
    (hs : ∀ n, s = .name n → n ∈ bound) : ∃ a, srcBits env s = some a := by
  cases s with
  | literal w => exact ⟨w, rfl⟩
  | name n => exact h n (hs n rfl)

/-- Lines of `p` that are well-formed after the names `bound` run to their end, and bind their names soundly. -/
theorem Netlist.run_of_wellFormedFrom {p ls : Netlist} {bound : List Nat} {env : Bindings}
    (hwf : Netlist.wellFormedFrom bound ls = true) (hsub : ∀ l ∈ ls, l ∈ p) (hsound : Bindings.Sound p env)
    (hcovers : Bindings.Covers env bound) (s : State) :
    ∃ s' env', Netlist.run ls s env = some (s', env') ∧ Bindings.Sound p env' ∧
      Bindings.Covers env' (bound ++ ls.map Line.dst) := by
  induction ls generalizing bound env s with
  | nil => exact ⟨s, env, rfl, hsound, by simpa using hcovers⟩
  | cons l ls ih =>
    obtain ⟨_, hsrc, hrest⟩ := (Netlist.wellFormedFrom_cons_iff bound l ls).mp hwf
    obtain ⟨hl, hls⟩ := List.forall_mem_cons.mp hsub
    obtain ⟨a, ha⟩ := srcBits_of_covers hcovers hsrc
    obtain ⟨s', env', hrun, hsound', hcovers'⟩ :=
      ih hrest hls (hsound.cons (.of_srcBits hsound hl ha)) (hcovers.cons l.dst a) ((s.present (l.op.apply a)).driveY a)
    refine ⟨s', env', (Netlist.run_cons_of_srcBits ha ls s).trans hrun, hsound', fun n hn => hcovers' n ?_⟩
    simpa [or_left_comm] using hn

/-- A name whose chain begins somewhere is some line's. -/
theorem StartsAt.mem_dst {p : Netlist} {n : Nat} {w : Word} (h : StartsAt p n w) : n ∈ p.map Line.dst := by
  cases h with
  | literal mem _ => exact List.mem_map_of_mem mem
  | wire mem _ _ => exact List.mem_map_of_mem mem

/-- Where names are bound once, the chain of a line's name goes through that line. -/
theorem StartsAt.src_cases {p : Netlist} (hnodup : (p.map Line.dst).Nodup) {l : Line} (hl : l ∈ p) {w : Word}
    (h : StartsAt p l.dst w) : l.src = .literal w ∨ ∃ n, l.src = .name n ∧ StartsAt p n w := by
  generalize hdst : l.dst = d at h
  cases h with
  | literal mem src =>
    cases List.inj_on_of_nodup_map hnodup hl mem hdst
    exact .inl src
  | wire mem src chain =>
    cases List.inj_on_of_nodup_map hnodup hl mem hdst
    exact .inr ⟨_, src, chain⟩

/-- Where names are bound once, a chain begins at one literal only. -/
theorem StartsAt.unique {p : Netlist} (hnodup : (p.map Line.dst).Nodup) {n : Nat} {v w : Word} (hv : StartsAt p n v)
    (hw : StartsAt p n w) : v = w := by
  induction hv with
  | literal mem src =>
    rcases StartsAt.src_cases hnodup mem hw with hlit | ⟨m, hname, _⟩
    · exact Src.literal.inj (src.symm.trans hlit)
    · cases src.symm.trans hname
  | wire mem src _ ih =>
    rcases StartsAt.src_cases hnodup mem hw with hlit | ⟨m, hname, chain⟩
    · cases src.symm.trans hlit
    · cases src.symm.trans hname
      exact ih chain

/-- Chains speak of the lines and not of their order. -/
theorem StartsAt.of_perm {p q : Netlist} (h : p.Perm q) {n : Nat} {w : Word} (hp : StartsAt p n w) :
    StartsAt q n w := by
  induction hp with
  | literal mem src => exact .literal (h.subset mem) src
  | wire mem src _ ih => exact .wire (h.subset mem) src ih

theorem StartsAt.perm_iff {p q : Netlist} (h : p.Perm q) (n : Nat) (w : Word) : StartsAt p n w ↔ StartsAt q n w :=
  ⟨.of_perm h, .of_perm h.symm⟩

/-- Settles O21: every value bound begins its name's chain, every name of a line is bound, and a chain has one
beginning. -/
theorem netlistsCarryLiteralsUnchanged : Obligations.NetlistsCarryLiteralsUnchanged := by
  intro p s hwf
  have hempty : Bindings.Sound p [] := nofun
  obtain ⟨s', env, hrun, hsound, hcovers⟩ :=
    Netlist.run_of_wellFormedFrom hwf (fun _ => id) hempty (bound := []) nofun s
  obtain ⟨hnodup, _⟩ := (wellFormedNetlistsFeedForward p).mp hwf
  refine ⟨s', env, hrun, fun n w => ⟨hsound n w, fun hw => ?_⟩⟩
  obtain ⟨v, hv⟩ := hcovers n hw.mem_dst
  rw [hv, StartsAt.unique hnodup (hsound n v hv) hw]

/-- Settles O22: both runs bind a name to the literal that begins its chain, and the chains of the two orders are
the same. -/
theorem netlistOrderDoesNotShow : Obligations.NetlistOrderDoesNotShow := by
  intro p q s t hperm hp hq
  obtain ⟨s', env, hrun, hbinds⟩ := netlistsCarryLiteralsUnchanged p s hp
  obtain ⟨t', env', hrun', hbinds'⟩ := netlistsCarryLiteralsUnchanged q t hq
  refine ⟨s', t', env, env', hrun, hrun', fun n => Option.ext fun w => ?_⟩
  rw [hbinds, hbinds', StartsAt.perm_iff hperm]

end Sys2Proof.Machine
end

section
/-! PROOFS. 30_encoding.md section 5: a written line reads back. -/

namespace Sys2Proof.Text

/-- The character begins no comment; `beforeComment` takes the characters while this holds. -/
def continuesLine (c : Char) : Bool := c != '(' && c != ';'

/-! ### Hexadecimal literals -/

/-- A digit is written with a character that reads as the digit and neither separates words nor begins a comment. -/
theorem hexDigit_spec (d : BitVec 4) :
    hexValue (hexDigit d) = some d ∧ hexDigit d ≠ ' ' ∧ continuesLine (hexDigit d) = true := by
  revert d
  decide

/-- Reading digit `k` takes what the digits above it gave to what the digits from `k` up give. -/
theorem readHexInto_hexDigit_cons (w : Word) (k : Nat) (cs : List Char) :
    readHexInto (w >>> (4 * (k + 1))) (hexDigit (w.extractLsb' (4 * k) 4) :: cs) = readHexInto (w >>> (4 * k)) cs := by
  have hdigit : w >>> (4 * (k + 1)) <<< 4 ||| (w.extractLsb' (4 * k) 4).setWidth 32 = w >>> (4 * k) := by
    apply BitVec.eq_of_getLsbD_eq
    intro j hj
    by_cases h : j < 4
    · simp [h, hj]
    · have hplace : 4 * (k + 1) + (j - 4) = 4 * k + j := by omega
      simp [h, hj, hplace]
  simp only [readHexInto, hexDigit_spec, hdigit]

/-- The eight digits of a vector read as the vector. -/
theorem readHexInto_hexDigits (w : Word) : readHexInto 0#32 (hexDigits w) = some w := by
  have hstart : 0#32 = w >>> (4 * (7 + 1)) := (BitVec.ushiftRight_eq_zero (Nat.le_refl 32)).symm
  rw [hexDigits, hstart]
  simp only [List.map_cons, List.map_nil]
  rw [readHexInto_hexDigit_cons w 7, readHexInto_hexDigit_cons w 6, readHexInto_hexDigit_cons w 5,
    readHexInto_hexDigit_cons w 4, readHexInto_hexDigit_cons w 3, readHexInto_hexDigit_cons w 2,
    readHexInto_hexDigit_cons w 1, readHexInto_hexDigit_cons w 0]
  simp [readHexInto]

/-! ### Names, sources and mnemonics -/

/-- A name reads back: its digits are those of its own number. -/
theorem readName_name (n : Nat) : readName (name n) = some n := by
  have hdigits : (Nat.toDigits 10 n).all Char.isDigit = true :=
    List.all_eq_true.mpr fun c hc => Nat.isDigit_of_mem_toDigits (by decide) (by decide) hc
  simp [name, readName, readNumber, Nat.toDigits_ne_nil, hdigits, Nat.ofDigitChars_ten_toDigits]

theorem readSrc_src (s : Src) : readSrc (src s) = some s := by
  cases s with
  | literal w =>
    have hlength : (hexDigits w).length = 8 := rfl
    simp [src, readSrc, hlength, readHexInto_hexDigits]
  | name n =>
    have hname : readSrc (name n) = (readName (name n)).map Src.name := rfl
    rw [src, hname, readName_name, Option.map_some]

theorem readOp_mnemonic (o : Op) : readOp (mnemonic o) = some o := by cases o <;> decide

/-! ### Words and comments -/

/-- The characters of a word: at least one, no space, and no character that begins a comment. -/
def IsToken (cs : List Char) : Prop := cs ≠ [] ∧ ∀ c ∈ cs, c ≠ ' ' ∧ continuesLine c = true

theorem isToken_name (n : Nat) : IsToken (name n) := by
  refine ⟨List.cons_ne_nil _ _, List.forall_mem_cons.mpr ⟨by decide, fun c hc => ?_⟩⟩
  have hdigit : c.isDigit = true := Nat.isDigit_of_mem_toDigits (by decide) (by decide) hc
  have hne : ∀ d : Char, d.isDigit = false → c ≠ d := by
    rintro d hd rfl
    exact absurd hdigit (by simp [hd])
  simp [continuesLine, hne]

theorem isToken_src (s : Src) : IsToken (src s) := by
  cases s with
  | literal w =>
    refine ⟨List.cons_ne_nil _ _, List.forall_mem_cons.mpr ⟨by decide, List.forall_mem_cons.mpr ⟨by decide, ?_⟩⟩⟩
    intro c hc
    obtain ⟨k, _, rfl⟩ := List.mem_map.mp hc
    exact (hexDigit_spec _).2
  | name n => exact isToken_name n

theorem isToken_mnemonic (o : Op) : IsToken (mnemonic o) := by
  cases o <;> simp [IsToken, mnemonic, continuesLine]

/-- The characters of a word are collected until it ends. -/
theorem words_append_of_no_space (current rest : List Char) {cs : List Char} (h : ∀ c ∈ cs, c ≠ ' ') :
    words current (cs ++ rest) = words (cs.reverse ++ current) rest := by
  induction cs generalizing current with
  | nil => rfl
  | cons c cs ih =>
    obtain ⟨hc, hcs⟩ := List.forall_mem_cons.mp h
    simp [words, hc, ih (c :: current) hcs]

/-- A space between words is passed over. -/
theorem words_space (rest : List Char) : words [] (' ' :: rest) = words [] rest := rfl

theorem words_spaces (n : Nat) : words [] (List.replicate n ' ') = [] := by
  induction n with
  | zero => rfl
  | succ n ih => rw [List.replicate_succ, words_space, ih]

/-- A token with nothing or a space after it is the first word. -/
theorem words_token {cs rest : List Char} (h : IsToken cs) (hrest : rest.head?.all (· = ' ')) :
    words [] (cs ++ rest) = cs :: words [] rest := by
  obtain ⟨hne, hchars⟩ := h
  rw [words_append_of_no_space [] rest fun c hc => (hchars c hc).1, List.append_nil]
  have hcurrent : cs.reverse ≠ [] := by simpa using hne
  cases rest with
  | nil => simp [words, hcurrent]
  | cons c rest =>
    obtain rfl : c = ' ' := by simpa using hrest
    simp [words, hcurrent]

/-- The words of a line with any number of spaces after it. -/
theorem words_line_spaces (l : Line) (n : Nat) :
    words [] (line l ++ List.replicate n ' ') = [name l.dst, ['='], mnemonic l.op, src l.src] := by
  have hequals : IsToken ['='] := by simp [IsToken, continuesLine]
  have hspaces : (List.replicate n ' ').head?.all (· = ' ') := by cases n <;> simp [List.replicate_succ]
  have hline : line l ++ List.replicate n ' ' =
      name l.dst ++ ' ' :: (['='] ++ ' ' :: (mnemonic l.op ++ ' ' :: (src l.src ++ List.replicate n ' '))) := by
    simp [line]
  rw [hline, words_token (isToken_name _) rfl, words_space, words_token hequals rfl, words_space,
    words_token (isToken_mnemonic _) rfl, words_space, words_token (isToken_src _) hspaces, words_spaces]

/-- What stands before the comment decides what is read. -/
theorem readLine_of_beforeComment {cs : List Char} {l : Line} {n : Nat}
    (h : beforeComment cs = line l ++ List.replicate n ' ') : readLine cs = some l := by
  simp [readLine, h, words_line_spaces, readName_name, readOp_mnemonic, readSrc_src]

theorem IsToken.continuesLine {cs : List Char} (h : IsToken cs) : ∀ c ∈ cs, continuesLine c = true :=
  fun c hc => (h.2 c hc).2

/-- No comment begins within a line or the spaces after it. -/
theorem continuesLine_of_mem_line_spaces (l : Line) (n : Nat) :
    ∀ c ∈ line l ++ List.replicate n ' ', continuesLine c = true := by
  have hspace : ∀ c ∈ [' '], continuesLine c = true := by simp [continuesLine]
  have hequals : ∀ c ∈ [' ', '=', ' '], continuesLine c = true := by simp [continuesLine]
  simp only [line, List.forall_mem_append]
  exact ⟨⟨⟨⟨⟨(isToken_name _).continuesLine, hequals⟩, (isToken_mnemonic _).continuesLine⟩, hspace⟩,
    (isToken_src _).continuesLine⟩, fun c hc => hspace c (by simp [List.eq_of_mem_replicate hc])⟩

/-- A line, the spaces after it, and whatever a comment begins with: the comment is dropped. -/
theorem beforeComment_line_spaces (l : Line) (n : Nat) {rest : List Char}
    (hrest : rest.head?.all fun c => !continuesLine c) :
    beforeComment (line l ++ List.replicate n ' ' ++ rest) = line l ++ List.replicate n ' ' := by
  have htake : rest.takeWhile continuesLine = [] := by
    cases rest with
    | nil => rfl
    | cons c rest => exact List.takeWhile_cons_of_neg (by simpa using hrest)
  have h := List.takeWhile_append_of_pos (l₂ := rest) (continuesLine_of_mem_line_spaces l n)
  rwa [htake, List.append_nil] at h

/-- Settles O19: the comment is dropped, and what stands before it is the four words that were written. -/
theorem writtenLinesReadBack : Obligations.WrittenLinesReadBack := by
  refine fun l => ⟨?_, fun spaces note => ⟨?_, ?_⟩⟩
  · have halone : beforeComment (line l) = line l ++ List.replicate 0 ' ' := by
      simpa using beforeComment_line_spaces l 0 (rest := []) rfl
    exact readLine_of_beforeComment halone
  · exact readLine_of_beforeComment (beforeComment_line_spaces l spaces rfl)
  · exact readLine_of_beforeComment (beforeComment_line_spaces l spaces rfl)

end Sys2Proof.Text
end

section
/-! PROOFS. 00_scope.md section 6 and 30_encoding.md sections 6 to 9: the readings of a vector. -/

namespace Sys2Proof

/-- `bv32` is Lean's vector of an integer. -/
theorem bv32_eq_ofInt (n : Int) : bv32 n = BitVec.ofInt 32 n := by
  apply BitVec.eq_of_toNat_eq
  rw [bv32, BitVec.toNat_ofNat, BitVec.toNat_ofInt]
  omega

/-- The signed reading is negative exactly when bit 31, the sign of the pattern, is set (R47, R50). -/
theorem sint_neg_iff_sign (x : F32) : sint x.bits < 0 ↔ x.sign = 1#1 := by
  have hfields := x.uint_bits_eq_fields
  have hexponent := x.exponent.isLt
  have hfraction := x.fraction.isLt
  have hsign : x.sign = 1#1 ↔ x.sign.toNat = 1 := BitVec.toNat_eq
  rw [sint_eq_toInt, BitVec.toInt_neg_iff, hsign]
  simp only [uint] at hfields
  omega

/-- Settles O23: both casts keep the bits, so the fields and the integer readings are of one vector. -/
theorem floatFieldsAreIntegerBits : Obligations.FloatFieldsAreIntegerBits := by
  refine ⟨fun x => ?_, fun v => ?_⟩
  · rw [Machine.floatToIntBits_eq]
    exact ⟨rfl, rfl, rfl, x.uint_bits_eq_fields, sint_neg_iff_sign x⟩
  · rw [Machine.intBitsToFloat_eq]
    exact ⟨rfl, rfl, rfl, (F32.mk v.bits).uint_bits_eq_fields, sint_neg_iff_sign ⟨v.bits⟩⟩

/-- Settles O24: the readings are Lean's `toNat` and `toInt`, and `bv32` is Lean's `ofInt`, which inverts both. -/
theorem integerReadingsAreBijections : Obligations.IntegerReadingsAreBijections := by
  refine ⟨fun v => ⟨v.isLt, ?_, ?_, ?_, ?_⟩, fun n => ?_, fun n hlow hhigh => ?_⟩
  · rw [sint_eq_toInt]
    exact BitVec.le_toInt v
  · rw [sint_eq_toInt]
    exact Int.le_of_lt_add_one BitVec.toInt_lt
  · rw [sint_eq_toInt, bv32_eq_ofInt, BitVec.ofInt_toInt]
  · rw [uint, bv32_eq_ofInt, BitVec.ofInt_natCast, BitVec.ofNat_toNat, BitVec.setWidth_eq]
  · rw [uint, bv32_eq_ofInt, BitVec.toNat_ofInt]
    omega
  · rw [sint_eq_toInt, bv32_eq_ofInt]
    exact BitVec.toInt_ofInt_eq_self (by decide) hlow (Int.lt_add_one_of_le hhigh)

/-- Settles O28: eight fixed patterns, each computed. -/
theorem namedConstantsReadAsListed : Obligations.NamedConstantsReadAsListed := by
  unfold Obligations.NamedConstantsReadAsListed
  decide

end Sys2Proof

namespace Sys2Proof.Machine

/-- Settles O35: each cast is the other's inverse on both sides. -/
theorem operationsAreInverseBijections : Obligations.OperationsAreInverseBijections := by
  refine ⟨⟨floatToIntBits_injective, fun v => ⟨_, floatToIntBits_intBitsToFloat v⟩⟩,
    ⟨Function.LeftInverse.injective floatToIntBits_intBitsToFloat, fun x => ⟨_, intBitsToFloat_floatToIntBits x⟩⟩,
    fun x v => ⟨?_, ?_⟩⟩
  · rintro rfl
    exact intBitsToFloat_floatToIntBits x
  · rintro rfl
    exact floatToIntBits_intBitsToFloat v

end Sys2Proof.Machine
end

section
/-! PROOFS. 30_encoding.md section 6: the classes of binary32. -/

namespace Sys2Proof

/-! ### Each class by its fields (R45) -/

/-- The exponents and fractions of each class. -/
def FloatClass.HasFields : FloatClass → BitVec 8 → BitVec 23 → Prop
  | .zero, e, f     => e = 0#8 ∧ f = 0#23
  | .denormal, e, f => e = 0#8 ∧ f ≠ 0#23
  | .normal, e, _   => e ≠ 0#8 ∧ e ≠ 255#8
  | .infinity, e, f => e = 255#8 ∧ f = 0#23
  | .nan, e, f      => e = 255#8 ∧ f ≠ 0#23

theorem F32.classify_eq_iff (x : F32) (c : FloatClass) : x.classify = c ↔ c.HasFields x.exponent x.fraction := by
  unfold F32.classify
  split_ifs <;> cases c <;> simp_all [FloatClass.HasFields]

theorem F32.classify_eq_zero_iff (x : F32) : x.classify = .zero ↔ x.exponent = 0#8 ∧ x.fraction = 0#23 :=
  x.classify_eq_iff .zero

theorem F32.classify_eq_denormal_iff (x : F32) : x.classify = .denormal ↔ x.exponent = 0#8 ∧ x.fraction ≠ 0#23 :=
  x.classify_eq_iff .denormal

theorem F32.classify_eq_normal_iff (x : F32) : x.classify = .normal ↔ x.exponent ≠ 0#8 ∧ x.exponent ≠ 255#8 :=
  x.classify_eq_iff .normal

theorem F32.classify_eq_infinity_iff (x : F32) : x.classify = .infinity ↔ x.exponent = 255#8 ∧ x.fraction = 0#23 :=
  x.classify_eq_iff .infinity

theorem F32.classify_eq_nan_iff (x : F32) : x.classify = .nan ↔ x.exponent = 255#8 ∧ x.fraction ≠ 0#23 :=
  x.classify_eq_iff .nan

/-! ### Counting patterns by their fields -/

/-- Patterns are the triples of their fields (R43). -/
def F32.fieldsEquiv : F32 ≃ BitVec 1 × BitVec 8 × BitVec 23 where
  toFun x := (x.sign, x.exponent, x.fraction)
  invFun c := F32.ofFields c.1 c.2.1 c.2.2
  left_inv := F32.ofFields_fields
  right_inv c := by simp

theorem card_bitVec (n : Nat) : Nat.card (BitVec n) = 2 ^ n := by
  rw [Nat.card_congr BitVec.equivFin.toEquiv, Nat.card_fin]

/-- All vectors but some. -/
theorem card_bitVec_notMem {n : Nat} (s : Finset (BitVec n)) : Nat.card { v : BitVec n // v ∉ s } = 2 ^ n - s.card := by
  rw [← card_bitVec, ← Set.ncard_coe_finset, ← Set.ncard_compl]
  exact Nat.card_coe_set_eq (↑s : Set (BitVec n))ᶜ

/-- Either sign goes with each exponent and each fraction of the kinds asked for. -/
theorem F32.card_of_fields (P : BitVec 8 → Prop) (Q : BitVec 23 → Prop) :
    Nat.card { x : F32 // P x.exponent ∧ Q x.fraction } = 2 * (Nat.card { e // P e } * Nat.card { f // Q f }) := by
  have htriples : { x : F32 // P x.exponent ∧ Q x.fraction } ≃
      { c : BitVec 1 × BitVec 8 × BitVec 23 // True ∧ P c.2.1 ∧ Q c.2.2 } :=
    F32.fieldsEquiv.subtypeEquiv fun x => Iff.of_eq (true_and (P x.exponent ∧ Q x.fraction)).symm
  have hpairs := Nat.card_congr (Equiv.subtypeProdEquivProd (p := P) (q := Q))
  have hsigns := Nat.card_congr (Equiv.subtypeProdEquivProd (p := fun _ : BitVec 1 => True)
    (q := fun d : BitVec 8 × BitVec 23 => P d.1 ∧ Q d.2))
  rw [Nat.card_prod] at hpairs hsigns
  rw [Nat.card_congr htriples, hsigns, hpairs, Nat.card_subtype_true, card_bitVec, pow_one]

/-- The patterns of a class given by an exponent and a fraction of certain kinds. -/
theorem F32.card_class (P : BitVec 8 → Prop) (Q : BitVec 23 → Prop) {c : FloatClass}
    (h : ∀ x : F32, x.classify = c ↔ P x.exponent ∧ Q x.fraction) :
    Nat.card { x : F32 // x.classify = c } = 2 * (Nat.card { e // P e } * Nat.card { f // Q f }) := by
  rw [← F32.card_of_fields]
  exact Nat.card_congr (Equiv.subtypeEquivRight h)

/-- Settles O25: two signs for each exponent and fraction of the class. -/
theorem classesCountThePatterns : Obligations.ClassesCountThePatterns := by
  have hnonzero := card_bitVec_notMem {0#23}
  have hnormal := card_bitVec_notMem {0#8, 255#8}
  simp only [Finset.mem_singleton, Finset.mem_insert, not_or] at hnonzero hnormal
  refine ⟨?_, ?_, ?_, ?_, ?_⟩
  · rw [F32.card_class (· = 0#8) (· = 0#23) F32.classify_eq_zero_iff, Nat.card_unique, Nat.card_unique]
  · rw [F32.card_class (· = 0#8) (· ≠ 0#23) F32.classify_eq_denormal_iff, Nat.card_unique, hnonzero]
    rfl
  · have hanyFraction : ∀ x : F32, x.classify = .normal ↔ (x.exponent ≠ 0#8 ∧ x.exponent ≠ 255#8) ∧ True := fun x => by
      rw [F32.classify_eq_normal_iff, and_true]
    rw [F32.card_class (fun e => e ≠ 0#8 ∧ e ≠ 255#8) (fun _ => True) hanyFraction, hnormal, Nat.card_subtype_true,
      card_bitVec]
    rfl
  · rw [F32.card_class (· = 255#8) (· = 0#23) F32.classify_eq_infinity_iff, Nat.card_unique, Nat.card_unique]
  · rw [F32.card_class (· = 255#8) (· ≠ 0#23) F32.classify_eq_nan_iff, Nat.card_unique, hnonzero]
    rfl

end Sys2Proof
end

section
/-! PROOFS. 30_encoding.md section 6: the numeric value, counted in units of `2^-149`. -/

namespace Sys2Proof

/-! ### The magnitude in units, and the order of the patterns -/

/-- The low 31 bits of a pattern as a number, `{E, F}` (R43). -/
def F32.magnitude (x : F32) : Nat := x.exponent.toNat * 2 ^ 23 + x.fraction.toNat

theorem F32.uint_bits_eq_magnitude (x : F32) : uint x.bits = x.sign.toNat * 2 ^ 31 + x.magnitude := by
  rw [x.uint_bits_eq_fields, F32.magnitude, Nat.add_assoc]

/-- The sign bit counts `-2^31` in the signed reading (R47). -/
theorem F32.sint_bits_eq_magnitude (x : F32) : sint x.bits = (x.magnitude : Int) - 2 ^ 31 * x.sign.toNat := by
  have huint := x.uint_bits_eq_magnitude
  have hexponent := x.exponent.isLt
  have hfraction := x.fraction.isLt
  have hsign := x.sign.isLt
  simp only [uint, F32.magnitude] at huint ⊢
  rw [sint_eq_toInt, BitVec.toInt_eq_toNat_cond]
  split <;> omega

theorem F32.sign_eq_zero_or_one (x : F32) : x.sign = 0#1 ∨ x.sign = 1#1 := by
  have hcases : ∀ s : BitVec 1, s = 0#1 ∨ s = 1#1 := by decide
  exact hcases x.sign

/-- A pattern is its sign and its magnitude. -/
theorem F32.ext_magnitude {x y : F32} (hs : x.sign = y.sign) (hm : x.magnitude = y.magnitude) : x = y := by
  rw [F32.eq_iff_bits_eq]
  apply BitVec.eq_of_toNat_eq
  have hx := x.uint_bits_eq_magnitude
  rwa [hs, hm, ← y.uint_bits_eq_magnitude] at hx

theorem F32.units_of_exponent_zero {x : F32} (h : x.exponent = 0#8) : x.units = x.fraction.toNat := by
  rw [F32.units, if_pos h]

theorem F32.units_of_exponent_ne_zero {x : F32} (h : x.exponent ≠ 0#8) :
    x.units = (2 ^ 23 + x.fraction.toNat) * 2 ^ (x.exponent.toNat - 1) := by
  rw [F32.units, if_neg h]

theorem F32.exponent_pos {x : F32} (h : x.exponent ≠ 0#8) : 0 < x.exponent.toNat := by
  rw [Nat.pos_iff_ne_zero]
  exact fun h0 => h (BitVec.eq_of_toNat_eq h0)

/-- Patterns of one exponent lie below this count, those of greater exponents do not. -/
theorem F32.units_lt (x : F32) : x.units < 2 ^ 23 * 2 ^ x.exponent.toNat := by
  have hfraction := x.fraction.isLt
  by_cases h : x.exponent = 0#8
  · simpa [F32.units_of_exponent_zero h, h] using hfraction
  · have hpow := Nat.two_pow_pred_add_two_pow_pred (F32.exponent_pos h)
    rw [F32.units_of_exponent_ne_zero h, ← hpow, ← Nat.mul_two, ← Nat.mul_assoc, Nat.mul_right_comm]
    exact Nat.mul_lt_mul_of_pos_right (by omega) (Nat.two_pow_pos _)

theorem F32.le_units_of_lt_exponent {x : F32} {e : Nat} (h : e < x.exponent.toNat) : 2 ^ 23 * 2 ^ e ≤ x.units := by
  have hne : x.exponent ≠ 0#8 := by
    rintro h0
    simp [h0] at h
  rw [F32.units_of_exponent_ne_zero hne]
  exact Nat.mul_le_mul (Nat.le_add_right _ _) (Nat.pow_le_pow_right (by decide) (by omega))

/-- A greater magnitude counts more units: patterns of one sign are ordered as integers are. -/
theorem F32.units_lt_units {x y : F32} (h : x.magnitude < y.magnitude) : x.units < y.units := by
  have hx := x.fraction.isLt
  have hy := y.fraction.isLt
  unfold F32.magnitude at h
  rcases Nat.lt_trichotomy x.exponent.toNat y.exponent.toNat with hlt | heq | hgt
  · exact Nat.lt_of_lt_of_le x.units_lt (F32.le_units_of_lt_exponent hlt)
  · have hfraction : x.fraction.toNat < y.fraction.toNat := by omega
    have hexponent : x.exponent = y.exponent := BitVec.eq_of_toNat_eq heq
    unfold F32.units
    rw [hexponent]
    split
    · exact hfraction
    · exact Nat.mul_lt_mul_of_pos_right (by omega) (Nat.two_pow_pos _)
  · omega

theorem F32.units_eq_units {x y : F32} (h : x.magnitude = y.magnitude) : x.units = y.units := by
  have hx := x.fraction.isLt
  have hy := y.fraction.isLt
  unfold F32.magnitude at h
  have hexponent : x.exponent = y.exponent := BitVec.eq_of_toNat_eq (by omega)
  have hfraction : x.fraction = y.fraction := BitVec.eq_of_toNat_eq (by omega)
  rw [F32.units, F32.units, hexponent, hfraction]

theorem F32.units_le_units {x y : F32} (h : x.magnitude ≤ y.magnitude) : x.units ≤ y.units := by
  rcases Nat.lt_or_eq_of_le h with hlt | heq
  · exact (F32.units_lt_units hlt).le
  · exact (F32.units_eq_units heq).le

theorem F32.units_eq_units_iff {x y : F32} : x.units = y.units ↔ x.magnitude = y.magnitude := by
  refine ⟨fun h => ?_, F32.units_eq_units⟩
  rcases Nat.lt_trichotomy x.magnitude y.magnitude with hlt | heq | hgt
  · exact absurd h (F32.units_lt_units hlt).ne
  · exact heq
  · exact absurd h (F32.units_lt_units hgt).ne'

theorem F32.classify_eq_zero_iff_magnitude (x : F32) : x.classify = .zero ↔ x.magnitude = 0 := by
  rw [F32.classify_eq_zero_iff, F32.magnitude, BitVec.toNat_eq, BitVec.toNat_eq]
  simp

theorem F32.units_eq_zero_iff (x : F32) : x.units = 0 ↔ x.classify = .zero := by
  rw [F32.classify_eq_zero_iff_magnitude]
  exact F32.units_eq_units_iff (y := ⟨0#32⟩)

/-! ### The signed value -/

/-- The number of a finite pattern as a signed count of units (R46). -/
def F32.signedUnits (x : F32) : Int := if x.sign = 1#1 then -(x.units : Int) else x.units

theorem F32.signedUnits_of_sign_zero {x : F32} (h : x.sign = 0#1) : x.signedUnits = x.units := by
  simp [F32.signedUnits, h]

theorem F32.signedUnits_of_sign_one {x : F32} (h : x.sign = 1#1) : x.signedUnits = -(x.units : Int) := by
  simp [F32.signedUnits, h]

theorem F32.natAbs_signedUnits (x : F32) : x.signedUnits.natAbs = x.units := by
  rcases x.sign_eq_zero_or_one with h | h
  · rw [F32.signedUnits_of_sign_zero h, Int.natAbs_natCast]
  · rw [F32.signedUnits_of_sign_one h, Int.natAbs_neg, Int.natAbs_natCast]

/-- An infinity and a NaN are the patterns with the greatest exponent, and have no number (R45, R46). -/
theorem F32.exponent_eq_255_iff (x : F32) : x.exponent = 255#8 ↔ x.classify = .infinity ∨ x.classify = .nan := by
  rw [F32.classify_eq_infinity_iff, F32.classify_eq_nan_iff]
  tauto

/-- A finite pattern is neither an infinity nor a NaN. -/
theorem F32.classify_of_finite {x : F32} (h : x.exponent ≠ 255#8) :
    x.classify ≠ .infinity ∧ x.classify ≠ .nan := by
  rwa [Ne, F32.exponent_eq_255_iff, not_or] at h

theorem F32.value_of_finite {x : F32} (h : x.exponent ≠ 255#8) : x.value = .finite x.negative x.units := by
  obtain ⟨hinf, hnan⟩ := F32.classify_of_finite h
  cases hc : x.classify with
  | zero => simp only [F32.value, hc, (F32.units_eq_zero_iff x).mpr hc]
  | denormal => simp only [F32.value, hc]
  | normal => simp only [F32.value, hc]
  | infinity => exact absurd hc hinf
  | nan => exact absurd hc hnan

theorem F32.value_signedUnits_of_finite {x : F32} (h : x.exponent ≠ 255#8) :
    x.value.signedUnits = some x.signedUnits := by
  rw [F32.value_of_finite h]
  simp [FloatValue.signedUnits, F32.signedUnits, F32.negative]

theorem F32.value_signedUnits_of_not_finite {x : F32} (h : x.exponent = 255#8) : x.value.signedUnits = none := by
  rcases (F32.exponent_eq_255_iff x).mp h with hc | hc <;> simp [F32.value, hc, FloatValue.signedUnits]

theorem F32.signedUnits_eq_pow_mul (x : F32) : (x.signedUnits : Rat) = (-1) ^ x.sign.toNat * (x.units : Rat) := by
  rcases x.sign_eq_zero_or_one with h | h
  · simp [F32.signedUnits_of_sign_zero h, h]
  · simp [F32.signedUnits_of_sign_one h, h]

/-- The spec's formula for a finite pattern is its count of units (R46). -/
theorem F32.formula_of_finite {x : F32} (h : x.exponent ≠ 255#8) :
    x.formula = some ((x.signedUnits : Rat) / 2 ^ 149) := by
  rw [F32.signedUnits_eq_pow_mul, mul_div_assoc]
  cases hc : x.classify with
  | zero => simp [F32.formula, hc, (F32.units_eq_zero_iff x).mpr hc]
  | denormal =>
    obtain ⟨hzero, _⟩ := (F32.classify_eq_denormal_iff x).mp hc
    simp only [F32.formula, hc, F32.units_of_exponent_zero hzero]
    rw [zpow_neg, zpow_ofNat]
    congr 1
    ring
  | normal =>
    obtain ⟨hne, _⟩ := (F32.classify_eq_normal_iff x).mp hc
    simp only [F32.formula, hc, F32.units_of_exponent_ne_zero hne]
    have hpos := F32.exponent_pos hne
    have hpow : (2 : Rat) ^ ((x.exponent.toNat : Int) - 127) = 2 ^ (x.exponent.toNat - 1) / 2 ^ 126 := by
      have hint : (x.exponent.toNat : Int) - 127 = ((x.exponent.toNat - 1 : Nat) : Int) - 126 := by omega
      rw [hint, zpow_sub₀ two_ne_zero, zpow_natCast, zpow_ofNat]
    rw [hpow]
    push_cast
    congr 1
    ring
  | infinity => exact absurd hc (F32.classify_of_finite h).1
  | nan => exact absurd hc (F32.classify_of_finite h).2

theorem F32.formula_of_not_finite {x : F32} (h : x.exponent = 255#8) : x.formula = none := by
  rcases (F32.exponent_eq_255_iff x).mp h with hc | hc <;> simp [F32.formula, hc]

/-- Settles O26: finite patterns by the formula's three cases; the others have no number on either side. -/
theorem unitsAgreeWithTheFormula : Obligations.UnitsAgreeWithTheFormula := by
  intro x
  by_cases h : x.exponent = 255#8
  · rw [F32.formula_of_not_finite h, F32.value_signedUnits_of_not_finite h]
    rfl
  · rw [F32.formula_of_finite h, F32.value_signedUnits_of_finite h]
    rfl

end Sys2Proof
end

section
/-! PROOFS. 30_encoding.md section 6 and 40_bitcast.md section 3: numeric equality against bit equality. -/

namespace Sys2Proof

/-- Patterns of different signs have one number only if it is 0. -/
theorem F32.units_eq_zero_of_sign_ne {x y : F32} (h : x.signedUnits = y.signedUnits) (hsign : x.sign ≠ y.sign) :
    x.units = 0 := by
  rcases x.sign_eq_zero_or_one with hx | hx <;> rcases y.sign_eq_zero_or_one with hy | hy
  · exact absurd (hx.trans hy.symm) hsign
  · rw [F32.signedUnits_of_sign_zero hx, F32.signedUnits_of_sign_one hy] at h
    omega
  · rw [F32.signedUnits_of_sign_one hx, F32.signedUnits_of_sign_zero hy] at h
    omega
  · exact absurd (hx.trans hy.symm) hsign

/-- Two patterns have one number exactly when they are one pattern or two zeros. -/
theorem F32.signedUnits_eq_iff (x y : F32) :
    x.signedUnits = y.signedUnits ↔ x = y ∨ x.classify = .zero ∧ y.classify = .zero := by
  rw [← F32.units_eq_zero_iff, ← F32.units_eq_zero_iff]
  constructor
  · intro h
    have hunits : x.units = y.units := by rw [← x.natAbs_signedUnits, h, y.natAbs_signedUnits]
    by_cases hsign : x.sign = y.sign
    · exact .inl (F32.ext_magnitude hsign (F32.units_eq_units_iff.mp hunits))
    · have hzero := F32.units_eq_zero_of_sign_ne h hsign
      exact .inr ⟨hzero, hunits ▸ hzero⟩
  · rintro (rfl | ⟨hx, hy⟩)
    · rfl
    · simp [F32.signedUnits, hx, hy]

theorem F32.finite_or_infinity_or_nan (x : F32) :
    x.exponent ≠ 255#8 ∨ x.classify = .infinity ∨ x.classify = .nan := by
  rw [← F32.exponent_eq_255_iff]
  exact ne_or_eq _ _

theorem F32.value_of_infinity {x : F32} (h : x.classify = .infinity) : x.value = .infinity x.negative := by
  simp only [F32.value, h]

/-- A NaN is numerically unequal to everything (R46). -/
theorem F32.numericEq_of_nan_right (x : F32) {y : F32} (hnan : y.classify = .nan) : F32.numericEq x y = false := by
  simp only [F32.numericEq, F32.value_of_nan hnan]
  cases x.value <;> rfl

/-- Finite patterns compare by their numbers (log entry 5). -/
theorem F32.numericEq_of_finite {x y : F32} (hx : x.exponent ≠ 255#8) (hy : y.exponent ≠ 255#8) :
    F32.numericEq x y = true ↔ x.signedUnits = y.signedUnits := by
  have hvx := F32.value_signedUnits_of_finite hx
  have hvy := F32.value_signedUnits_of_finite hy
  rw [F32.value_of_finite hx] at hvx
  rw [F32.value_of_finite hy] at hvy
  simp only [F32.numericEq, F32.value_of_finite hx, F32.value_of_finite hy, hvx, hvy]
  simp

theorem F32.negative_eq_iff {x y : F32} : x.negative = y.negative ↔ x.sign = y.sign := by
  have hbits : ∀ s t : BitVec 1, (s == 1#1) = (t == 1#1) ↔ s = t := by decide
  exact hbits x.sign y.sign

/-- Infinities compare by their signs (log entry 5), and the sign is all that distinguishes them. -/
theorem F32.numericEq_of_infinity {x y : F32} (hx : x.classify = .infinity) (hy : y.classify = .infinity) :
    F32.numericEq x y = true ↔ x = y := by
  simp only [F32.numericEq, F32.value_of_infinity hx, F32.value_of_infinity hy, beq_iff_eq]
  refine ⟨fun h => ?_, congrArg F32.negative⟩
  rw [F32.classify_eq_infinity_iff] at hx hy
  exact F32.ext_fields (F32.negative_eq_iff.mp h) (hx.1.trans hy.1.symm) (hx.2.trans hy.2.symm)

/-- A finite pattern and an infinity are unequal, in either order. -/
theorem F32.numericEq_finite_infinity {x y : F32} (hx : x.exponent ≠ 255#8) (hy : y.classify = .infinity) :
    F32.numericEq x y = false ∧ F32.numericEq y x = false := by
  simp [F32.numericEq, F32.value_of_finite hx, F32.value_of_infinity hy]

/-- Settles O41: by which of finite, infinity and NaN each pattern is; only two finite patterns can be unequal and have
one number, and then they are the zeros. -/
theorem numericEqualityIsBitEqualityElsewhere : Obligations.NumericEqualityIsBitEqualityElsewhere := by
  intro x y
  rcases x.finite_or_infinity_or_nan with hx | hx | hx
  · obtain ⟨hxinf, hxnan⟩ := F32.classify_of_finite hx
    rcases y.finite_or_infinity_or_nan with hy | hy | hy
    · obtain ⟨_, hynan⟩ := F32.classify_of_finite hy
      rw [F32.numericEq_of_finite hx hy, F32.signedUnits_eq_iff]
      simp [hxnan, hynan]
    · have hne : x ≠ y := by
        rintro rfl
        exact hxinf hy
      simp [(F32.numericEq_finite_infinity hx hy).1, hy, hne]
    · simp [F32.numericEq_of_nan_right x hy, hy]
  · rcases y.finite_or_infinity_or_nan with hy | hy | hy
    · have hne : x ≠ y := by
        rintro rfl
        exact (F32.classify_of_finite hy).1 hx
      simp [(F32.numericEq_finite_infinity hy hx).2, hx, hne]
    · rw [F32.numericEq_of_infinity hx hy]
      simp [hx, hy]
    · simp [F32.numericEq_of_nan_right x hy, hy]
  · simp [F32.numericEq_of_nan_left hx y, hx]

end Sys2Proof
end

section
/-! PROOFS. 30_encoding.md section 6: the source's example is the pattern nearest to 12345.63. -/

namespace Sys2Proof

theorem exampleBelow_units : (F32.mk 0x4640E684#32).units = 12641924 * 2 ^ 139 := by decide
theorem example_units : (F32.mk 0x4640E685#32).units = 12641925 * 2 ^ 139 := by decide
theorem exampleAbove_units : (F32.mk 0x4640E686#32).units = 12641926 * 2 ^ 139 := by decide

/-- The finite patterns other than the example count no more units than its lower neighbour, or no fewer than its upper
one: by the order of the patterns, and because a pattern with its sign set has no number above 0. -/
theorem signedUnits_beside_example {x : F32} (h : x.bits ≠ 0x4640E685#32) :
    x.signedUnits ≤ 12641924 * 2 ^ 139 ∨ 12641926 * 2 ^ 139 ≤ x.signedUnits := by
  rcases x.sign_eq_zero_or_one with hs | hs
  · have hne : x.magnitude ≠ (F32.mk 0x4640E685#32).magnitude := fun hm =>
      h ((F32.eq_iff_bits_eq _ _).mp (F32.ext_magnitude (hs.trans (by decide)) hm))
    have hbelow : (F32.mk 0x4640E684#32).magnitude + 1 = (F32.mk 0x4640E685#32).magnitude := by decide
    have habove : (F32.mk 0x4640E685#32).magnitude + 1 = (F32.mk 0x4640E686#32).magnitude := by decide
    rw [F32.signedUnits_of_sign_zero hs]
    rcases Nat.lt_or_gt_of_ne hne with hlt | hgt
    · have hunits : x.units ≤ _ := F32.units_le_units (y := ⟨0x4640E684#32⟩) (by omega)
      rw [exampleBelow_units] at hunits
      exact .inl (by exact_mod_cast hunits)
    · have hunits : _ ≤ x.units := F32.units_le_units (x := ⟨0x4640E686#32⟩) (by omega)
      rw [exampleAbove_units] at hunits
      exact .inr (by exact_mod_cast hunits)
  · rw [F32.signedUnits_of_sign_one hs]
    exact .inl (by omega)

/-- The formula of a pattern without sign, from its count of units. -/
theorem F32.formula_of_units {x : F32} (hfinite : x.exponent ≠ 255#8) (hs : x.sign = 0#1) {n : Nat}
    (h : x.units = n * 2 ^ 139) : x.formula = some ((n : Rat) / 1024) := by
  rw [F32.formula_of_finite hfinite, F32.signedUnits_of_sign_zero hs, h]
  congr 1
  push_cast
  ring

/-- Every other number is farther from 12345.63 than the example's, which is less than half a unit in the last place
away. -/
theorem example_nearest {x : F32} (h : x.bits ≠ 0x4640E685#32) :
    |(12641925 / 1024 : Rat) - 1234563 / 100| < |(x.signedUnits : Rat) / 2 ^ 149 - 1234563 / 100| := by
  have hexample : |(12641925 / 1024 : Rat) - 1234563 / 100| < 1 / 2048 := by
    rw [abs_lt]
    norm_num
  refine hexample.trans (lt_abs.mpr ?_)
  rcases signedUnits_beside_example h with hbelow | habove
  · have hle : (x.signedUnits : Rat) ≤ 12641924 * 2 ^ 139 := by exact_mod_cast hbelow
    right
    linarith
  · have hle : (12641926 * 2 ^ 139 : Rat) ≤ x.signedUnits := by exact_mod_cast habove
    left
    linarith

/-- Settles O27: the three values from their counts of units, the distance by `example_nearest`, the bitcasts as the
identity; the rest are fixed patterns. -/
theorem sourceExampleIsTheNearestPattern : Obligations.SourceExampleIsTheNearestPattern := by
  refine ⟨by decide, by decide, by decide, ?_, ?_, ?_, fun x hinf hnan hne => ?_, fun s => ?_⟩
  · exact_mod_cast F32.formula_of_units (by decide) (by decide) example_units
  · exact_mod_cast F32.formula_of_units (by decide) (by decide) exampleBelow_units
  · exact_mod_cast F32.formula_of_units (by decide) (by decide) exampleAbove_units
  · have hfinite : x.exponent ≠ 255#8 := by
      rw [Ne, F32.exponent_eq_255_iff]
      exact not_or.mpr ⟨hinf, hnan⟩
    exact ⟨_, F32.formula_of_finite hfinite, example_nearest hne⟩
  · have hsint : sint 0x4640E685#32 = 1178658437 := by decide
    have hbv : bv32 1178658437 = 0x4640E685#32 := by decide
    exact ⟨_, _, Machine.transact_eq_driveY_operand _ s, hsint, Machine.transact_eq_driveY_operand _ s, hbv⟩

end Sys2Proof
end

section
/-! PROOFS. 30_encoding.md section 9: the bitcast is not the value conversion. -/

namespace Sys2Proof

theorem F32.tdiv_signedUnits_of_sign_zero {x : F32} (h : x.sign = 0#1) :
    x.signedUnits.tdiv (2 ^ 149) = (x.units / 2 ^ 149 : Nat) := by
  rw [F32.signedUnits_of_sign_zero h]
  rfl

theorem F32.tdiv_signedUnits_of_sign_one {x : F32} (h : x.sign = 1#1) :
    x.signedUnits.tdiv (2 ^ 149) = -((x.units / 2 ^ 149 : Nat) : Int) := by
  rw [F32.signedUnits_of_sign_one h, Int.neg_tdiv]
  rfl

theorem F32.sint_bits_of_sign_zero {x : F32} (h : x.sign = 0#1) : sint x.bits = x.magnitude := by
  rw [F32.sint_bits_eq_magnitude, h]
  exact sub_zero _

theorem F32.sint_bits_of_sign_one {x : F32} (h : x.sign = 1#1) : sint x.bits = (x.magnitude : Int) - 2 ^ 31 := by
  rw [F32.sint_bits_eq_magnitude, h]
  rfl

/-- Below exponent 150 the integer part is less than `2^23`. -/
theorem F32.units_div_lt {x : F32} (h : x.exponent.toNat < 150) : x.units / 2 ^ 149 < 2 ^ 23 := by
  have hpow : 2 ^ x.exponent.toNat ≤ 2 ^ 149 := Nat.pow_le_pow_right (by decide) (by omega)
  exact Nat.div_lt_of_lt_mul (by have := x.units_lt; omega)

/-- From exponent 150 on the value is an integer. -/
theorem F32.units_div_of_le {x : F32} (h : 150 ≤ x.exponent.toNat) :
    x.units / 2 ^ 149 = (2 ^ 23 + x.fraction.toNat) * 2 ^ (x.exponent.toNat - 150) := by
  have hne : x.exponent ≠ 0#8 := by
    intro h0
    simp [h0] at h
  have hexponent : x.exponent.toNat - 1 = x.exponent.toNat - 150 + 149 := by omega
  rw [F32.units_of_exponent_ne_zero hne, hexponent, Nat.pow_add, ← Nat.mul_assoc]
  exact Nat.mul_div_cancel _ (Nat.two_pow_pos 149)

/-- The integer part of a finite value is never the pattern's own magnitude, but for a zero, nor its complement to
`2^31`: below exponent 150 it is too small, from exponent 158 on too great, and for the eight exponents between no
fraction solves the linear equation. -/
theorem F32.units_div_ne_magnitude {x : F32} (hfinite : x.exponent ≠ 255#8) :
    (x.units / 2 ^ 149 = x.magnitude → x.magnitude = 0) ∧ x.units / 2 ^ 149 + x.magnitude ≠ 2 ^ 31 := by
  have hfraction := x.fraction.isLt
  have hexponent : x.exponent.toNat < 255 := by
    have hne : x.exponent.toNat ≠ 255 := fun h => hfinite (BitVec.eq_of_toNat_eq h)
    have hlt := x.exponent.isLt
    omega
  unfold F32.magnitude
  by_cases hsmall : x.exponent.toNat < 150
  · have hlt := F32.units_div_lt hsmall
    by_cases hzero : x.exponent = 0#8
    · have hdiv : x.units / 2 ^ 149 = 0 := by
        rw [F32.units_of_exponent_zero hzero]
        exact Nat.div_eq_of_lt (by omega)
      omega
    · have hpos := F32.exponent_pos hzero
      omega
  · obtain ⟨j, hj⟩ := Nat.exists_eq_add_of_le (Nat.le_of_not_lt hsmall)
    have hdiv := F32.units_div_of_le (Nat.le_of_not_lt hsmall)
    rw [hdiv, hj, Nat.add_sub_cancel_left]
    by_cases hmiddle : j < 8
    · interval_cases j <;> omega
    · have hpow : 2 ^ 8 ≤ 2 ^ j := Nat.pow_le_pow_right (by decide) (by omega)
      have hgreat := Nat.mul_le_mul (Nat.le_add_right (2 ^ 23) x.fraction.toNat) hpow
      omega

theorem F32.bits_eq_zero_iff (x : F32) : x.bits = 0#32 ↔ x.sign = 0#1 ∧ x.magnitude = 0 := by
  constructor
  · intro h
    obtain rfl : x = ⟨0#32⟩ := (F32.eq_iff_bits_eq _ _).mpr h
    decide
  · rintro ⟨hs, hm⟩
    exact (F32.eq_iff_bits_eq x ⟨0#32⟩).mp (F32.ext_magnitude hs hm)

/-- The integer part of a finite value is the signed reading of the pattern for `+0.0` alone. -/
theorem F32.tdiv_signedUnits_eq_sint_iff {x : F32} (hfinite : x.exponent ≠ 255#8) :
    x.signedUnits.tdiv (2 ^ 149) = sint x.bits ↔ x.bits = 0#32 := by
  obtain ⟨hsame, hcomplement⟩ := F32.units_div_ne_magnitude hfinite
  rw [F32.bits_eq_zero_iff]
  rcases x.sign_eq_zero_or_one with hs | hs
  · rw [F32.tdiv_signedUnits_of_sign_zero hs, F32.sint_bits_of_sign_zero hs, Nat.cast_inj, and_iff_right hs]
    refine ⟨hsame, fun hm => ?_⟩
    rw [hm, (F32.units_eq_zero_iff x).mpr ((F32.classify_eq_zero_iff_magnitude x).mpr hm), Nat.zero_div]
  · rw [F32.tdiv_signedUnits_of_sign_one hs, F32.sint_bits_of_sign_one hs, hs]
    exact iff_of_false (fun h => hcomplement (by omega)) (fun h => absurd h.1 (by decide))

/-- The truncated value, as an answer that infinities and NaNs lack. -/
theorem F32.truncated_eq_sint_iff (x : F32) :
    (x.value.signedUnits.map fun n => n.tdiv (2 ^ 149)) = some (sint x.bits) ↔ x.bits = 0#32 := by
  by_cases h : x.exponent = 255#8
  · have hne : x.bits ≠ 0#32 := by
      intro h0
      simp [F32.exponent, h0] at h
    simp [F32.value_signedUnits_of_not_finite h, hne]
  · rw [F32.value_signedUnits_of_finite h, Option.map_some, Option.some_inj, F32.tdiv_signedUnits_eq_sint_iff h]

/-- An exact value is its own truncation. -/
theorem F32.exact_eq_sint_iff (x : F32) :
    x.value.signedUnits = some (sint x.bits * 2 ^ 149) ↔ x.bits = 0#32 := by
  constructor
  · intro h
    rw [← F32.truncated_eq_sint_iff, h, Option.map_some, Int.mul_tdiv_cancel _ (by decide)]
  · intro h
    obtain rfl : x = ⟨0#32⟩ := (F32.eq_iff_bits_eq _ _).mpr h
    decide

/-- Settles O29: both casts keep the bits, and a pattern's value meets its signed reading at `+0.0` alone. -/
theorem bitcastIsNotTheValueConversion : Obligations.BitcastIsNotTheValueConversion := by
  unfold Obligations.BitcastIsNotTheValueConversion
  simp only [Machine.floatToIntBits_eq, Machine.intBitsToFloat_eq]
  refine ⟨F32.exact_eq_sint_iff, F32.truncated_eq_sint_iff, fun v => F32.exact_eq_sint_iff ⟨v.bits⟩, ?_⟩
  decide

end Sys2Proof
end
